-- ==== Sys2Proof/Word.lean ====
section
/-! DEFINITION. The value domain of the core: every register, memory word, operand and address is a 32-bit pattern
(00_scope.md R5). -/

namespace Sys2Proof

/-- A register value, memory word, address or operand (00_scope.md section 6, type `Word`). The unsigned reading `u(v)`
of the spec is `BitVec.toNat`, the signed reading `s(v)` is `BitVec.toInt`. -/
abbrev Word := BitVec 32

/-- One of the four bytes the model stores a memory word in (log entry 1). -/
abbrev Byte := BitVec 8

/-- The reduction modulo 2^32 that the spec's pseudocode writes `wrap32(n)` (00_scope.md section 6). -/
def wrap32 (n : Int) : Word := BitVec.ofInt 32 n

end Sys2Proof
end

