-- ==== Sys2Proof/Config.lean ====
section
/-! DEFINITION. The parameters of the core, each a field of the configuration (00_scope.md R3), the form in which the
runtime-services collaborator (RTS) answers, and the free values that stand for what no source states. -/

namespace Sys2Proof

/-! ### The runtime-services collaborator -/

/-- The three sets the RTS partitions the selectors into (45_system.md R163). -/
inductive SelectorClass where
  /-- Performed: answers with a result, ends the process, meets a memory fault, or never answers. -/
  | implemented
  /-- Recognised but not implemented. -/
  | unsupported
  /-- Not recognised. -/
  | undefined
deriving DecidableEq, Repr, Inhabited

/-- One bounds-checked access of the RTS to the machine's memory (20_memory.md R42, 45_system.md R165). -/
inductive RtsAccess where
  | read (addr : Word)
  | write (addr v : Word)
deriving DecidableEq, Repr, Inhabited

/-- How the performance of an implemented call ends, once its accesses are done (45_system.md R161). -/
inductive RtsEnding where
  /-- `Return(v, Mem')`, where `Mem'` is memory after the performance's writes. -/
  | ret (v : Word)
  /-- `Exit(v)`. -/
  | exit (v : Word)
  /-- No answer: the call blocks for ever or replaces the process. -/
  | never
deriving DecidableEq, Repr, Inhabited

/-- What the RTS does in one implemented call: its accesses in order, then the ending. The response `MemFault(a)` of
45_system.md R161 is what results when one of the accesses lies outside memory (log entry 10). -/
structure RtsPerformance where
  accesses : List RtsAccess
  ending : RtsEnding
deriving DecidableEq, Repr, Inhabited

/-- The RTS's partition of the selectors, fixed for a run (45_system.md R163): spelled out by two lists, every other
selector being undefined, or left unstated, as the spec leaves it. -/
inductive SelectorTable where
  | unstated
  | listed (implemented unsupported : List Word)
deriving DecidableEq, Repr, Inhabited

/-! ### The parameters that the spec decides -/

/-- `OPC`, the opcode assignment: one number per instruction (00_scope.md R3, 30_encoding.md R61 to R64). The class structure is
fixed: R- and M-format instructions have an opcode byte, A-format instructions a selector of three bits and branches a
condition of four bits. The spec's own numbers are `OpcodeTable.standard` in Decode.lean. -/
structure OpcodeTable where
  mov : BitVec 8
  add : BitVec 8
  sub : BitVec 8
  mul : BitVec 8
  div : BitVec 8
  mod : BitVec 8
  and : BitVec 8
  or : BitVec 8
  shl : BitVec 8
  shr : BitVec 8
  cmp : BitVec 8
  push : BitVec 8
  pop : BitVec 8
  jmpR : BitVec 8
  callR : BitVec 8
  ret : BitVec 8
  sys : BitVec 8
  halt : BitVec 8
  movLd : BitVec 8
  movSt : BitVec 8
  ladM : BitVec 8
  ladA : BitVec 3
  jmpA : BitVec 3
  callA : BitVec 3
  movLda : BitVec 3
  movSta : BitVec 3
  beq : BitVec 4
  bne : BitVec 4
  blt : BitVec 4
  ble : BitVec 4
  bgt : BitVec 4
  bge : BitVec 4
deriving DecidableEq, Repr, Inhabited

/-- The opcode bytes of the R-format, in the order of 30_encoding.md R61. -/
def OpcodeTable.rNumbers (o : OpcodeTable) : List (BitVec 8) :=
  [o.mov, o.add, o.sub, o.mul, o.div, o.mod, o.and, o.or, o.shl, o.shr, o.cmp, o.push, o.pop, o.jmpR, o.callR, o.ret,
    o.sys, o.halt]

/-- The opcode bytes of the M-format (30_encoding.md R62). -/
def OpcodeTable.mNumbers (o : OpcodeTable) : List (BitVec 8) := [o.movLd, o.movSt, o.ladM]

/-- The selectors of the A-format (30_encoding.md R63). -/
def OpcodeTable.aNumbers (o : OpcodeTable) : List (BitVec 3) := [o.ladA, o.jmpA, o.callA, o.movLda, o.movSta]

/-- The conditions of the branches (30_encoding.md R64). -/
def OpcodeTable.bNumbers (o : OpcodeTable) : List (BitVec 4) := [o.beq, o.bne, o.blt, o.ble, o.bgt, o.bge]

/-- The assignments the spec admits: "Any injective assignment with the same class structure" (92_eei_decisions.md D1): within a
class no number twice, R- and M-format opcodes below 0x80, and no address selector 7, which is the branch class. -/
def OpcodeTable.ok (o : OpcodeTable) : Bool :=
  decide (o.rNumbers ++ o.mNumbers).Nodup && (o.rNumbers ++ o.mNumbers).all (fun n => !n.msb) &&
    decide o.aNumbers.Nodup && decide (7#3 ∉ o.aNumbers) && decide o.bNumbers.Nodup

/-- `RA_DECODE`, where the R-format source register is read (00_scope.md R3, 92_eei_decisions.md D3, 90_conflicts.md C1). -/
inductive RaDecode where
  /-- In bits 21-20 themselves, values 0 to 2: the spec's choice. -/
  | flagField
  /-- In bits 19-18, where bits 21-20 are not 3: "the alternative" of D3. -/
  | belowFlag
deriving DecidableEq, Repr, Inhabited

/-- `DIV_LAW`, the rounding of DIV and MOD and the result of -2^31 divided by -1 (00_scope.md R3). -/
inductive DivLaw where
  /-- Truncation toward zero, the overflowing quotient wrapped: the spec's choice (92_eei_decisions.md D12). -/
  | truncate
  /-- No law: where an operand is negative the two results are free values. -/
  | unstated
deriving DecidableEq, Repr, Inhabited

/-- `SHIFT_LAW`, the treatment of the shift count and the fill of SHR (00_scope.md R3). -/
inductive ShiftLaw where
  /-- Count modulo 32 and zero fill: the spec's choice (92_eei_decisions.md D13). -/
  | modulo32
  /-- No law: the result of a count outside 0 to 31 and the bits SHR fills in are free values. -/
  | unstated
deriving DecidableEq, Repr, Inhabited

/-- `EXIT_CODE`, the map from the fatal kinds to host exit statuses, which are integers: "distinct, nonzero, otherwise open"
(00_scope.md R3, 60_exceptions.md R192, 92_eei_decisions.md D26; log entry 25). -/
structure ExitCodes where
  illegalInstruction : Int
  illegalMemoryAccess : Int
  divisionByZero : Int
  undefinedSystemCall : Int
  unsupportedSystemCall : Int
deriving DecidableEq, Repr, Inhabited

/-- The exit statuses of the five kinds, in the order of 60_exceptions.md R170. -/
def ExitCodes.toList (e : ExitCodes) : List Int :=
  [e.illegalInstruction, e.illegalMemoryAccess, e.divisionByZero, e.undefinedSystemCall, e.unsupportedSystemCall]

/-- The map is injective and nonzero (60_exceptions.md R192). -/
def ExitCodes.ok (e : ExitCodes) : Bool := decide e.toList.Nodup && decide (0 ∉ e.toList)

/-! ### The configuration of a run -/

/-- The parameters of 00_scope.md R3, in its order; `XLEN` and `NREG` are fixed and stand in the types `Word` and `Reg`. They are
fixed for a run and no instruction reads them as data (10_state.md R19, R21). The spec's value of each is in
Machine/Defaults.lean. -/
structure Config where
  /-- `MEMSIZE`, the number of words of the memory array. -/
  memSize : Nat
  /-- `DATA_START`: recorded, read by no rule (20_memory.md R38). -/
  dataStart : Nat
  /-- `IMAGE`, the words loaded at address 0. -/
  image : List Word
  /-- `ENTRY`, the entry address. -/
  entry : Word
  /-- `OPC`, the opcode assignment. -/
  opc : OpcodeTable
  /-- `RTS`, the classification of selectors; the effect of a call is `State.rtsPerformance`. -/
  selectors : SelectorTable
  /-- `EXIT_CODE`, the exit statuses of the fatal kinds. -/
  exitCodes : ExitCodes
  /-- `MEM_FILL`, the content of memory words at and above the end of the image. -/
  memFill : Word
  /-- `INIT_SP`, the reset value of x[0]. -/
  initSp : Word
  /-- `INIT_FP`, the reset value of x[1]. -/
  initFp : Word
  /-- `INIT_ACC`, the reset value of x[2]. -/
  initAcc : Word
  /-- `INIT_SEC`, the reset value of x[3]. -/
  initSec : Word
  /-- `DIV_LAW`. -/
  divLaw : DivLaw
  /-- `SHIFT_LAW`. -/
  shiftLaw : ShiftLaw
  /-- `RA_DECODE`. -/
  raDecode : RaDecode
deriving DecidableEq, Repr, Inhabited

/-- The configurations the spec describes, the constraints of 00_scope.md R3 and 70_reset_and_hazards.md R200: 1 <= MEMSIZE <=
2^28, DATA_START <= MEMSIZE, an image of at most MEMSIZE words, an injective opcode assignment, and distinct nonzero exit
statuses. -/
def Config.ok (c : Config) : Bool :=
  decide (1 ≤ c.memSize) && decide (c.memSize ≤ 2 ^ 28) && decide (c.dataStart ≤ c.memSize) &&
    decide (c.image.length ≤ c.memSize) && c.opc.ok && c.exitCodes.ok

/-! ### Free values -/

/-- FREE VALUE: the class of a selector where the table leaves it unstated (45_system.md R163, U3 of
93_implementation_defined.md; log entry 8). It depends on the selector alone, so the partition is fixed for a run. -/
opaque Config.openSelectorClass : Word → SelectorClass

/-- FREE VALUE: what the RTS does under a configuration in the call with this ordinal number, selector, frame pointer and memory,
where the state holds no answer given beforehand (45_system.md R161, U1 and U2; log entry 9). -/
opaque Config.openRtsPerformance : Config → Nat → Word → Word → List Host.Cell → RtsPerformance

/-- FREE VALUE: the quotient of operands one of which is negative, under no law (U12; log entry 31). -/
opaque Config.openQuotient : Word → Word → Word

/-- FREE VALUE: the remainder of operands one of which is negative, under no law (U12; log entry 31). -/
opaque Config.openRemainder : Word → Word → Word

/-- FREE VALUE: the result of SHL by a count outside 0 to 31, under no law (U14; log entry 31). -/
opaque Config.openShiftLeft : Word → Word → Word

/-- FREE VALUE: the bits that SHR fills in, under no law (U14; log entry 31). -/
opaque Config.openShiftFill : Word → Word → Word

/-- The class of a selector under a table. -/
def SelectorTable.classify (t : SelectorTable) (sel : Word) : SelectorClass :=
  match t with
  | .unstated => Config.openSelectorClass sel
  | .listed imp uns =>
    if sel ∈ imp then .implemented else if sel ∈ uns then .unsupported else .undefined

end Sys2Proof
end

