-- ==== Sys2Proof/Syntax.lean ====
section
/-! DEFINITION. The instructions: one constructor per row of spec/opcode_table.json, in the table's order. An instruction
holds what the decoder produces (30_encoding.md R60): resolved register names and operands already extended to 32 bits. -/

namespace Sys2Proof

/-- The four registers x[0] to x[3] (10_state.md R11): stack pointer, frame pointer, accumulator, secondary. -/
inductive Reg where
  | sp | fp | acc | sec
deriving DecidableEq, Repr, Inhabited

/-- The resolved second operand of an R-format instruction (30_encoding.md R53): a register, or an immediate that is
already sign-extended. Register 3 is no legal source (`Src.wf`). -/
inductive Src where
  | reg (r : Reg)
  | imm (v : Word)
deriving DecidableEq, Repr, Inhabited

/-- The instruction set (30_encoding.md R61 to R64). -/
inductive Instr where
  | mov (rb : Reg) (src : Src)
  | add (rb : Reg) (src : Src)
  | sub (rb : Reg) (src : Src)
  | mul (rb : Reg) (src : Src)
  | div (rb : Reg) (src : Src)
  | mod (rb : Reg) (src : Src)
  | and (rb : Reg) (src : Src)
  | or (rb : Reg) (src : Src)
  | shl (rb : Reg) (src : Src)
  | shr (rb : Reg) (src : Src)
  | cmp (rb : Reg) (src : Src)
  | push (src : Src)
  | pop (rb : Reg)
  | jmpR (src : Src)
  | callR (src : Src)
  | ret
  | sys (src : Src)
  | halt
  | movLd (rd base : Reg) (offset : Word)
  | movSt (rd base : Reg) (offset : Word)
  | ladM (rd base : Reg) (offset : Word)
  | ladA (target : Word)
  | jmpA (target : Word)
  | callA (target : Word)
  | movLda (target : Word)
  | movSta (target : Word)
  | beq (offset : Word)
  | bne (offset : Word)
  | blt (offset : Word)
  | ble (offset : Word)
  | bgt (offset : Word)
  | bge (offset : Word)
deriving DecidableEq, Repr, Inhabited

end Sys2Proof
end

