-- ==== Sys2Proof/WellFormed.lean ====
section
/-! DEFINITION. Well-formed instructions: the legal field combinations of the encoder (30_encoding.md R67). -/

namespace Sys2Proof

/-- A 20-bit signed literal or offset: -524288 to 524287 (30_encoding.md R54, R67). -/
def fits20 (v : Word) : Bool :=
  decide (-524288 ≤ v.toInt) && decide (v.toInt ≤ 524287)

/-- A 24-bit signed displacement: -8388608 to 8388607 (30_encoding.md R57, R67). -/
def fits24 (v : Word) : Bool :=
  decide (-8388608 ≤ v.toInt) && decide (v.toInt ≤ 8388607)

/-- A 28-bit unsigned address (30_encoding.md R56, R67). -/
def fits28 (v : Word) : Bool :=
  decide (v.toNat < 268435456)

/-- A source operand is register 0, 1 or 2, or a literal of 20 bits; register 3 cannot be named (10_state.md R13), but where the
register is read below the flag (`RA_DECODE`). -/
def Src.wf (ra : RaDecode) : Src → Bool
  | .reg .sec => decide (ra = .belowFlag)
  | .reg .sp => true
  | .reg .fp => true
  | .reg .acc => true
  | .imm v => fits20 v

/-- The legal field combinations of 30_encoding.md R67, per instruction. -/
def Instr.wf (ra : RaDecode) : Instr → Bool
  | .mov _ src => src.wf ra
  | .add _ src => src.wf ra
  | .sub _ src => src.wf ra
  | .mul _ src => src.wf ra
  | .div _ src => src.wf ra
  | .mod _ src => src.wf ra
  | .and _ src => src.wf ra
  | .or _ src => src.wf ra
  | .shl _ src => src.wf ra
  | .shr _ src => src.wf ra
  | .cmp _ src => src.wf ra
  | .push src => src.wf ra
  | .pop _ => true
  | .jmpR src => src.wf ra
  | .callR src => src.wf ra
  | .ret => true
  | .sys src => src.wf ra
  | .halt => true
  | .movLd _ _ offset => fits20 offset
  | .movSt _ _ offset => fits20 offset
  | .ladM _ _ offset => fits20 offset
  | .ladA target => fits28 target
  | .jmpA target => fits28 target
  | .callA target => fits28 target
  | .movLda target => fits28 target
  | .movSta target => fits28 target
  | .beq offset => fits24 offset
  | .bne offset => fits24 offset
  | .blt offset => fits24 offset
  | .ble offset => fits24 offset
  | .bgt offset => fits24 offset
  | .bge offset => fits24 offset

end Sys2Proof
end

