-- ==== Sys2Proof/Decode.lean ====
section
/-! DEFINITION. The decoder and the encoder (30_encoding.md). The decoder is a pure, total function of the 32-bit word
(R60) under two parameters of the core, the opcode assignment `OPC` and the reading `RA_DECODE` of the source register
(00_scope.md R3); a word that selects no instruction decodes to `illegal`. -/

namespace Sys2Proof

/-! ### Fields and extensions -/

/-- Bits 31-24, the opcode byte `opb` (30_encoding.md R51). -/
def opbField (w : Word) : BitVec 8 := w.extractLsb' 24 8

/-- Bits 30-28, the selector `n` of the upper half (30_encoding.md R51, R56). -/
def selField (w : Word) : BitVec 3 := w.extractLsb' 28 3

/-- Bits 27-24, the condition of a branch (30_encoding.md R57). -/
def condField (w : Word) : BitVec 4 := w.extractLsb' 24 4

/-- Bits 23-22, `rb` of the R-format and `rd` of the M-format (30_encoding.md R52, R55). -/
def rbField (w : Word) : BitVec 2 := w.extractLsb' 22 2

/-- Bits 21-20, `f` of the R-format and `base` of the M-format (30_encoding.md R52, R55; 90_conflicts.md C1). -/
def raField (w : Word) : BitVec 2 := w.extractLsb' 20 2

/-- Bits 19-18, the R-format source register under the other reading of 92_eei_decisions.md D3. -/
def lowRaField (w : Word) : BitVec 2 := w.extractLsb' 18 2

/-- Bits 19-0, the literal of the R-format and the offset of the M-format (30_encoding.md R52, R55). -/
def litField (w : Word) : BitVec 20 := w.extractLsb' 0 20

/-- Bits 27-0, the address of the A-format (30_encoding.md R56). -/
def addrField (w : Word) : BitVec 28 := w.extractLsb' 0 28

/-- Bits 23-0, the displacement of the B-format (30_encoding.md R57). -/
def dispField (w : Word) : BitVec 24 := w.extractLsb' 0 24

/-- Sign extension of the 20-bit field (30_encoding.md R54). -/
def sext20 (v : BitVec 20) : Word := v.signExtend 32

/-- Sign extension of the 24-bit field (30_encoding.md R58). -/
def sext24 (v : BitVec 24) : Word := v.signExtend 32

/-- Zero extension of the 28-bit field, which is never sign-extended (30_encoding.md R59; 90_conflicts.md C3). -/
def zext28 (v : BitVec 28) : Word := v.setWidth 32

/-- The register a two-bit field names (10_state.md R11). -/
def Reg.ofField (v : BitVec 2) : Reg :=
  match v.toNat with
  | 0 => .sp
  | 1 => .fp
  | 2 => .acc
  | _ => .sec

/-- The two-bit number of a register (10_state.md R11). -/
def Reg.toField : Reg → BitVec 2
  | .sp => 0#2
  | .fp => 1#2
  | .acc => 2#2
  | .sec => 3#2

/-- The bits in which the R-format source register is read (92_eei_decisions.md D3). -/
def sourceField (ra : RaDecode) (w : Word) : BitVec 2 :=
  match ra with
  | .flagField => raField w
  | .belowFlag => lowRaField w

/-- Operand extraction of the R-format (30_encoding.md R53): flag value 3 is immediate mode, 0 to 2 name a register, and the bits
below the register are then not examined. -/
def srcOf (ra : RaDecode) (w : Word) : Src :=
  if raField w = 3#2 then .imm (sext20 (litField w)) else .reg (Reg.ofField (sourceField ra w))

/-! ### The opcode tables -/

/-- The spec's own opcode assignment (30_encoding.md R61 to R64; 92_eei_decisions.md D1, log entry 13). -/
def OpcodeTable.standard : OpcodeTable where
  mov := 0x01#8
  add := 0x02#8
  sub := 0x03#8
  mul := 0x04#8
  div := 0x05#8
  mod := 0x06#8
  and := 0x07#8
  or := 0x08#8
  shl := 0x09#8
  shr := 0x0A#8
  cmp := 0x0B#8
  push := 0x10#8
  pop := 0x11#8
  jmpR := 0x12#8
  callR := 0x13#8
  ret := 0x14#8
  sys := 0x15#8
  halt := 0x16#8
  movLd := 0x20#8
  movSt := 0x21#8
  ladM := 0x22#8
  ladA := 0#3
  jmpA := 1#3
  callA := 2#3
  movLda := 3#3
  movSta := 4#3
  beq := 0#4
  bne := 1#4
  blt := 2#4
  ble := 3#4
  bgt := 4#4
  bge := 5#4

/-- `ROPS`: the R-format instructions by opcode (30_encoding.md R61). Those that do not use `rb` or `src` drop it (R66). -/
def rOps (o : OpcodeTable) : List (BitVec 8 × (Reg → Src → Instr)) :=
  [(o.mov, .mov), (o.add, .add), (o.sub, .sub), (o.mul, .mul), (o.div, .div), (o.mod, .mod), (o.and, .and), (o.or, .or),
    (o.shl, .shl), (o.shr, .shr), (o.cmp, .cmp), (o.push, fun _ src => .push src), (o.pop, fun rb _ => .pop rb),
    (o.jmpR, fun _ src => .jmpR src), (o.callR, fun _ src => .callR src), (o.ret, fun _ _ => .ret),
    (o.sys, fun _ src => .sys src), (o.halt, fun _ _ => .halt)]

/-- `MOPS`: the M-format instructions by opcode (30_encoding.md R62). -/
def mOps (o : OpcodeTable) : List (BitVec 8 × (Reg → Reg → Word → Instr)) :=
  [(o.movLd, .movLd), (o.movSt, .movSt), (o.ladM, .ladM)]

/-- `AOPS`: the address-class instructions by selector (30_encoding.md R63). -/
def aOps (o : OpcodeTable) : List (BitVec 3 × (Word → Instr)) :=
  [(o.ladA, .ladA), (o.jmpA, .jmpA), (o.callA, .callA), (o.movLda, .movLda), (o.movSta, .movSta)]

/-- `BOPS`: the branches by condition (30_encoding.md R64). -/
def bOps (o : OpcodeTable) : List (BitVec 4 × (Word → Instr)) :=
  [(o.beq, .beq), (o.bne, .bne), (o.blt, .blt), (o.ble, .ble), (o.bgt, .bgt), (o.bge, .bge)]

/-! ### The decoder -/

/-- Why a word selects no instruction: the three groups of 30_encoding.md R65. -/
inductive IllegalWord where
  /-- Bit 31 is 0 and the opcode byte is neither an R-format nor an M-format opcode. -/
  | opcodeUnassigned
  /-- Bit 31 is 1 and the selector is 5 or 6. -/
  | selectorUnassigned
  /-- The top nibble is 0xF and the condition is 6 to 15. -/
  | conditionUnassigned
deriving DecidableEq, Repr

/-- What the decoder answers (30_encoding.md R60): an instruction, or the explicit illegal-instruction result. -/
inductive Decoded where
  | instr (i : Instr)
  | illegal (why : IllegalWord)
deriving DecidableEq, Repr

/-- The lower half of the opcode space, bit 31 clear: R-format, then M-format (30_encoding.md R51, R60). -/
def decodeLower (o : OpcodeTable) (ra : RaDecode) (w : Word) : Decoded :=
  match (rOps o).lookup (opbField w) with
  | some mk => .instr (mk (Reg.ofField (rbField w)) (srcOf ra w))
  | none =>
    match (mOps o).lookup (opbField w) with
    | some mk => .instr (mk (Reg.ofField (rbField w)) (Reg.ofField (raField w)) (sext20 (litField w)))
    | none => .illegal .opcodeUnassigned

/-- The branch class, top nibble 0xF (30_encoding.md R57, R60). -/
def decodeBranch (o : OpcodeTable) (w : Word) : Decoded :=
  match (bOps o).lookup (condField w) with
  | some mk => .instr (mk (sext24 (dispField w)))
  | none => .illegal .conditionUnassigned

/-- The upper half, bit 31 set: branch class for selector 7, else address class (30_encoding.md R51, R60). -/
def decodeUpper (o : OpcodeTable) (w : Word) : Decoded :=
  if selField w = 7#3 then decodeBranch o w
  else
    match (aOps o).lookup (selField w) with
    | some mk => .instr (mk (zext28 (addrField w)))
    | none => .illegal .selectorUnassigned

/-- `decode` of 30_encoding.md R60, under an opcode assignment and a reading of the source register. -/
def decode (o : OpcodeTable) (ra : RaDecode) (w : Word) : Decoded :=
  if w.msb then decodeUpper o w else decodeLower o ra w

/-! ### The encoder -/

/-- The flag and literal bits 21-0 of a source operand (30_encoding.md R67): `ra << 20`, or `(3 << 20) | (v mod 2^20)`. Under the
other reading the register is at bit 18 and the flag 0 (log entry 14). -/
def srcBits (ra : RaDecode) : Src → BitVec 22
  | .reg r =>
    match ra with
    | .flagField => r.toField.setWidth 22 <<< 20
    | .belowFlag => r.toField.setWidth 22 <<< 18
  | .imm v => (3#22 <<< 20) ||| (v.setWidth 20).setWidth 22

/-- An R-format word: `(OPB(op) << 24) | (rb << 22)` and the low 22 bits (30_encoding.md R67). -/
def rWord (opb : BitVec 8) (rb : BitVec 2) (low : BitVec 22) : Word :=
  (opb.setWidth 32 <<< 24) ||| (rb.setWidth 32 <<< 22) ||| low.setWidth 32

/-- An M-format word: `(OPB(op) << 24) | (rd << 22) | (base << 20) | (offset mod 2^20)` (30_encoding.md R67). -/
def mWord (opb : BitVec 8) (rd base : Reg) (offset : Word) : Word :=
  (opb.setWidth 32 <<< 24) ||| (rd.toField.setWidth 32 <<< 22) ||| (base.toField.setWidth 32 <<< 20) |||
    (offset.setWidth 20).setWidth 32

/-- An A-format word: `(NIB(op) << 28) | target` (30_encoding.md R67), the nibble being bit 31 and the selector; the target is
cut to its 28 bits. -/
def aWord (sel : BitVec 3) (target : Word) : Word :=
  (1#32 <<< 31) ||| (sel.setWidth 32 <<< 28) ||| (target.setWidth 28).setWidth 32

/-- A B-format word: `(OPB(op) << 24) | (offset mod 2^24)` (30_encoding.md R67), the opcode byte being 0xF and the condition. -/
def bWord (cond : BitVec 4) (offset : Word) : Word :=
  (0xF#32 <<< 28) ||| (cond.setWidth 32 <<< 24) ||| (offset.setWidth 24).setWidth 32

/-- `encode` of 30_encoding.md R67: the canonical word, every unused field zero. -/
def encode (o : OpcodeTable) (ra : RaDecode) : Instr → Word
  | .mov rb src => rWord o.mov rb.toField (srcBits ra src)
  | .add rb src => rWord o.add rb.toField (srcBits ra src)
  | .sub rb src => rWord o.sub rb.toField (srcBits ra src)
  | .mul rb src => rWord o.mul rb.toField (srcBits ra src)
  | .div rb src => rWord o.div rb.toField (srcBits ra src)
  | .mod rb src => rWord o.mod rb.toField (srcBits ra src)
  | .and rb src => rWord o.and rb.toField (srcBits ra src)
  | .or rb src => rWord o.or rb.toField (srcBits ra src)
  | .shl rb src => rWord o.shl rb.toField (srcBits ra src)
  | .shr rb src => rWord o.shr rb.toField (srcBits ra src)
  | .cmp rb src => rWord o.cmp rb.toField (srcBits ra src)
  | .push src => rWord o.push 0#2 (srcBits ra src)
  | .pop rb => rWord o.pop rb.toField 0#22
  | .jmpR src => rWord o.jmpR 0#2 (srcBits ra src)
  | .callR src => rWord o.callR 0#2 (srcBits ra src)
  | .ret => rWord o.ret 0#2 0#22
  | .sys src => rWord o.sys 0#2 (srcBits ra src)
  | .halt => rWord o.halt 0#2 0#22
  | .movLd rd base offset => mWord o.movLd rd base offset
  | .movSt rd base offset => mWord o.movSt rd base offset
  | .ladM rd base offset => mWord o.ladM rd base offset
  | .ladA target => aWord o.ladA target
  | .jmpA target => aWord o.jmpA target
  | .callA target => aWord o.callA target
  | .movLda target => aWord o.movLda target
  | .movSta target => aWord o.movSta target
  | .beq offset => bWord o.beq offset
  | .bne offset => bWord o.bne offset
  | .blt offset => bWord o.blt offset
  | .ble offset => bWord o.ble offset
  | .bgt offset => bWord o.bgt offset
  | .bge offset => bWord o.bge offset

/-! ### The host's entry -/

/-- The instruction word whose low `nbits` bits are `w`, every bit above them zero. -/
def tableWord (nbits w : Nat) : Word := BitVec.ofNat 32 (w % 2 ^ nbits)

/-- The instruction the decoder reads from a row's bits under the spec's own assignment; every instruction is exactly one 32-bit
word (30_encoding.md R50). -/
def decodeTableWord (nbits w : Nat) : Option Instr :=
  match decode .standard .flagField (tableWord nbits w) with
  | .instr i => some i
  | .illegal _ => none

end Sys2Proof
end

