-- ==== Sys2Proof/Machine/Defaults.lean ====
section
/-! DEFINITION. The value the spec gives each parameter of 00_scope.md R3, and the configuration of `State.reset`. -/

namespace Sys2Proof

/-- Exit statuses that meet the two demands of 60_exceptions.md R192, for `State.reset` only: DESIGN CHOICE (log entry 25). -/
def ExitCodes.sample : ExitCodes where
  illegalInstruction := 1
  illegalMemoryAccess := 2
  divisionByZero := 3
  undefinedSystemCall := 4
  unsupportedSystemCall := 5

/-- The configuration with a given MEMSIZE, DATA_START, image and partition of the selectors in which every other parameter has the
value of 00_scope.md R3: entry 0, `MEM_FILL` 0 (92_eei_decisions.md D23), `INIT_SP` and `INIT_FP` MEMSIZE - 1, `INIT_ACC` and
`INIT_SEC` 0 (D22), `OPC` of D1, `DIV_LAW` of D12, `SHIFT_LAW` of D13, `RA_DECODE` of D3. -/
def Config.standard (memSize dataStart : Nat) (image : List Word) (selectors : SelectorTable) : Config where
  memSize := memSize
  dataStart := dataStart
  image := image
  entry := 0#32
  opc := .standard
  selectors := selectors
  exitCodes := .sample
  memFill := 0#32
  initSp := BitVec.ofNat 32 (memSize - 1)
  initFp := BitVec.ofNat 32 (memSize - 1)
  initAcc := 0#32
  initSec := 0#32
  divLaw := .truncate
  shiftLaw := .modulo32
  raDecode := .flagField

/-- The configuration of `State.reset`: the largest memory the spec allows and no image, DESIGN CHOICE (log entry 3). -/
def Config.default : Config := Config.standard (2 ^ 28) 0 [] .unstated

end Sys2Proof
end

