-- ==== Sys2Proof/Machine/State.lean ====
section
/-! DEFINITION. The state of the core (10_state.md R10), the reasons a step stops, and the machine right after reset. -/

namespace Sys2Proof.Machine

/-- The five fatal kinds (60_exceptions.md R170). -/
inductive FaultKind where
  | illegalInstruction
  | illegalMemoryAccess
  | divisionByZero
  | undefinedSystemCall
  | unsupportedSystemCall
deriving DecidableEq, Repr, Inhabited

/-- The run status (10_state.md R17). -/
inductive Status where
  | running
  | halted (v : Word)
  | exited (v : Word)
  | fault (kind : FaultKind)
deriving DecidableEq, Repr, Inhabited

/-- Why a step has no next state. The five fatal kinds of the machine are not here: taking one is a next state whose
status records it (60_exceptions.md R178, log entry 6). -/
inductive Fault where
  /-- Raised by `step` when the status is not running: "A machine whose status is not `Running` takes no further step"
  (10_state.md R17). Safe: the machine does nothing more either. -/
  | runEnded
  /-- Raised by SYS when the RTS never answers: "the step never completes" (45_system.md R160, U4 of
  93_implementation_defined.md). Safe: the machine has no next state either. -/
  | systemCallNeverAnswers
deriving DecidableEq, Repr

/-- Why the model gives no meaning. -/
inductive Refusal where
  /-- Raised by an arm of `exec` for an instruction without a meaning; no arm raises it now. Safe: the run stops. -/
  | notModelled (mnemonic : String)
  /-- Raised by `State.load` for bounds with which the spec tells the host not to start a run (U21 of
  93_implementation_defined.md), and for an opcode assignment or exit statuses that break a constraint of the spec: DESIGN
  CHOICE (log entry 23). Safe: no run starts. -/
  | configurationNotDescribed
deriving DecidableEq, Repr

/-- Memory as a list of bytes by address: word `a` lies in the cells `4 * a` to `4 * a + 3`, low byte first (log entry 1);
a cell that is not listed reads as a byte of `MEM_FILL`. The operations are in Machine/Memory.lean. -/
abbrev Memory := List Host.Cell

/-- The machine (10_state.md R10). -/
structure State where
  /-- x[0], the stack pointer. -/
  sp : Word
  /-- x[1], the frame pointer. -/
  fp : Word
  /-- x[2], the accumulator. -/
  acc : Word
  /-- x[3], the secondary register. -/
  sec : Word
  /-- The instruction pointer, a word address (R14). -/
  pc : Word
  /-- The memory array (R20). -/
  mem : Memory
  /-- The trap flag (R16). -/
  trap : Option Word
  /-- The run status (R17). -/
  status : Status
  /-- The configuration of the run, changed by no step (R19, R21; log entry 7). -/
  cfg : Config
  /-- The MODEL's own: what the RTS will do in the coming implemented calls, oldest first, as far as it is given
  beforehand (log entry 9). -/
  rtsScript : List RtsPerformance
  /-- The MODEL's own: how many performances have been drawn; it indexes the free value (log entry 9). -/
  rtsCalls : Nat
deriving DecidableEq, Repr, Inhabited

/-- The machine right after reset (10_state.md R23, R24) with the configuration of log entry 3 and no image. -/
def State.reset : State where
  sp := Config.default.initSp
  fp := Config.default.initFp
  acc := Config.default.initAcc
  sec := Config.default.initSec
  pc := Config.default.entry
  mem := []
  trap := none
  status := .running
  cfg := Config.default
  rtsScript := []
  rtsCalls := 0

end Sys2Proof.Machine
end

