-- ==== Sys2Proof/Machine/Memory.lean ====
section
/-! DEFINITION. The memory array as plain data: reading and writing bytes and words of the list of cells, which keeps ONE
canonical form. Bounds are checked by the operations of Machine/Ops.lean. -/

namespace Sys2Proof.Machine

/-- What the byte at an address reads as where it is not listed: the byte of a word of `MEM_FILL` in that place (10_state.md R23;
log entry 2). -/
def Memory.fillByte (fill : Word) (k : Nat) : Byte := fill.extractLsb' (8 * (k % 4)) 8

/-- The byte at an address. -/
def Memory.readByte (fill : Word) : Memory → Nat → Byte
  | [], k => Memory.fillByte fill k
  | c :: m, k => if c.1 = k then c.2 else Memory.readByte fill m k

/-- The memory without the cell at an address. -/
def Memory.erase : Memory → Nat → Memory
  | [], _ => []
  | c :: m, k => if c.1 = k then Memory.erase m k else c :: Memory.erase m k

/-- Puts a cell in front of the first cell with a greater address. -/
def Memory.insert : Memory → Nat → Byte → Memory
  | [], k, v => [(k, v)]
  | c :: m, k, v => if k < c.1 then (k, v) :: c :: m else c :: Memory.insert m k v

/-- Writes one byte; writing what an unlisted address reads as removes the cell. -/
def Memory.writeByte (fill : Word) (m : Memory) (k : Nat) (v : Byte) : Memory :=
  if v = Memory.fillByte fill k then m.erase k else (m.erase k).insert k v

/-- The word at a word address: "the index of a 32-bit word" (20_memory.md R30). -/
def Memory.readWord (fill : Word) (m : Memory) (a : Nat) : Word :=
  m.readByte fill (4 * a + 3) ++ (m.readByte fill (4 * a + 2) ++ (m.readByte fill (4 * a + 1) ++ m.readByte fill (4 * a)))

/-- Replaces the word at a word address, all 32 bits (20_memory.md R32). -/
def Memory.writeWord (fill : Word) (m : Memory) (a : Nat) (v : Word) : Memory :=
  (((m.writeByte fill (4 * a) (v.extractLsb' 0 8)).writeByte fill (4 * a + 1) (v.extractLsb' 8 8)).writeByte fill
    (4 * a + 2) (v.extractLsb' 16 8)).writeByte fill (4 * a + 3) (v.extractLsb' 24 8)

/-- Writes words to consecutive addresses, the first at `a` (the image of 70_reset_and_hazards.md R200). -/
def Memory.writeWords (fill : Word) : Memory → Nat → List Word → Memory
  | m, _, [] => m
  | m, a, v :: vs => Memory.writeWords fill (m.writeWord fill a v) (a + 1) vs

/-- The canonical form: addresses strictly rising, and no cell that holds what an unlisted address reads as. -/
abbrev Memory.wf (fill : Word) (m : Memory) : Prop :=
  m.Pairwise (fun c d => c.1 < d.1) ∧ ∀ c ∈ m, c.2 ≠ Memory.fillByte fill c.1

/-- Every listed cell belongs to one of the words 0 to `n - 1`. -/
abbrev Memory.within (m : Memory) (n : Nat) : Prop := ∀ c ∈ m, c.1 < 4 * n

end Sys2Proof.Machine
end

