-- ==== Sys2Proof/Machine/Ops.lean ====
section
/-! DEFINITION. The named operations over registers, pc and memory, and taking a fault (00_scope.md section 6, 20_memory.md,
60_exceptions.md). There is no return from a fault (60_exceptions.md R190): the only way on is the host's invocation,
`State.invoke` in Machine/HostInterface.lean. -/

namespace Sys2Proof.Machine

/-! ### Registers and pc -/

/-- `x[i]` (00_scope.md section 6). No register is hardwired (10_state.md R12). -/
def State.reg (s : State) (r : Reg) : Word :=
  match r with
  | .sp => s.sp
  | .fp => s.fp
  | .acc => s.acc
  | .sec => s.sec

/-- `x[i] <- v` (00_scope.md section 6). -/
def State.setReg (s : State) (r : Reg) (v : Word) : State :=
  match r with
  | .sp => { s with sp := v }
  | .fp => { s with fp := v }
  | .acc => { s with acc := v }
  | .sec => { s with sec := v }

/-- `pc <- t` (00_scope.md section 6). -/
def State.setPc (s : State) (t : Word) : State := { s with pc := t }

/-- Phase 3 of the step: pc is advanced by one word before the instruction's own effect (10_state.md R14,
40_fetch_decode_execute.md R83). -/
def State.advance (s : State) : State := s.setPc (s.pc + 1#32)

/-- `status <- v` (10_state.md R17). -/
def State.setStatus (s : State) (v : Status) : State := { s with status := v }

/-- `trap <- addr(a)` (10_state.md R16). -/
def State.setTrap (s : State) (a : Word) : State := { s with trap := some a }

/-- Replaces the memory array. -/
def State.setMem (s : State) (m : Memory) : State := { s with mem := m }

/-! ### Memory accesses -/

/-- The byte of memory at an address, under the `MEM_FILL` of the run. -/
def State.readByte (s : State) (k : Nat) : Byte := s.mem.readByte s.cfg.memFill k

/-- The word of memory at an address (`Mem[a]`), without a bounds check. -/
def State.readWord (s : State) (a : Nat) : Word := s.mem.readWord s.cfg.memFill a

/-- Replaces the word of memory at an address, without a bounds check. -/
def State.writeWord (s : State) (a : Nat) (v : Word) : State := s.setMem (s.mem.writeWord s.cfg.memFill a v)

/-- The address lies in the memory array: the full 32-bit address, read as unsigned, is below MEMSIZE
(20_memory.md R33). -/
def State.inRange (s : State) (a : Word) : Bool := decide (a.toNat < s.cfg.memSize)

/-- `MemRead(addr, 1)`: the word, or none where the read raises (20_memory.md R31). -/
def State.memRead (s : State) (a : Word) : Option Word :=
  if s.inRange a then some (s.readWord a.toNat) else none

/-- `MemWrite(addr, 1, v)`: the state after the write, or none where the write raises (20_memory.md R32). -/
def State.memWrite (s : State) (a v : Word) : Option State :=
  if s.inRange a then some (s.writeWord a.toNat v) else none

/-- Phase 1 of the step: the bounds-checked read at pc (40_fetch_decode_execute.md R81). -/
def State.fetch (s : State) : Option Word := s.memRead s.pc

/-- Stores a word where the next step fetches (for `State.withFetchWord`). -/
def State.placeWord (s : State) (w : Word) : State := s.writeWord s.pc.toNat w

/-! ### Taking a fault -/

/-- Taking a fault, the whole effect of it: status records the kind and pc is set back to the instruction's own address
`ia`; there is no vector, no saved register and no mode (60_exceptions.md R178, 40_fetch_decode_execute.md R86). What the
instruction did before stays (60_exceptions.md R191). -/
def State.raise (s : State) (ia : Word) (kind : FaultKind) : State :=
  (s.setPc ia).setStatus (.fault kind)

/-- Taking an `IllegalMemoryAccess`, the only fault that writes `trap`: the exact computed address is kept
(60_exceptions.md R172). -/
def State.raiseMem (s : State) (ia a : Word) : State :=
  (s.setTrap a).raise ia .illegalMemoryAccess

end Sys2Proof.Machine
end

