-- ==== Sys2Proof/Machine/Flags.lean ====
section
/-! DEFINITION. The machine has no condition code (10_state.md R18). A comparison leaves its result in a register and a branch
tests the accumulator; both computations stand here. -/

namespace Sys2Proof.Machine

/-- The three-way signed comparison: -1, 0 or 1 (42_arithmetic_logic.md R131). -/
def compareSigned (a b : Word) : Word :=
  if a.toInt < b.toInt then 0xFFFFFFFF#32 else if a.toInt = b.toInt then 0#32 else 1#32

/-- COND of BEQ (41_control_transfer.md R108). -/
def condEq (v : Word) : Bool := decide (v = 0#32)

/-- COND of BNE (41_control_transfer.md R109). -/
def condNe (v : Word) : Bool := decide (v ≠ 0#32)

/-- COND of BLT (41_control_transfer.md R110). -/
def condLt (v : Word) : Bool := decide (v.toInt < 0)

/-- COND of BLE (41_control_transfer.md R111). -/
def condLe (v : Word) : Bool := decide (v.toInt ≤ 0)

/-- COND of BGT (41_control_transfer.md R112). -/
def condGt (v : Word) : Bool := decide (0 < v.toInt)

/-- COND of BGE (41_control_transfer.md R113). -/
def condGe (v : Word) : Bool := decide (0 ≤ v.toInt)

end Sys2Proof.Machine
end

