-- ==== Sys2Proof/Machine/Operands.lean ====
section
/-! DEFINITION. The operand forms: the second operand of the R-format, the effective address of the M-format, and the argument
block of a system call. All are read from the state before the instruction writes anything
(40_fetch_decode_execute.md R84). -/

namespace Sys2Proof.Machine

/-- The value of `src`: the register's, or the sign-extended literal (30_encoding.md R53). -/
def State.srcVal (s : State) (src : Src) : Word :=
  match src with
  | .reg r => s.reg r
  | .imm v => v

/-- The effective address of register plus signed literal, modulo 2^32 (44_load_store.md R150, 20_memory.md R34). -/
def State.effAddr (s : State) (base : Reg) (offset : Word) : Word := s.reg base + offset

/-- The address of argument `n` of a system call or of a called function: frame pointer + 2 + n, modulo 2^32
(45_system.md R162). -/
def State.argAddr (s : State) (n : Word) : Word := s.reg .fp + 2#32 + n

end Sys2Proof.Machine
end

