-- ==== Sys2Proof/Machine/Arith.lean ====
section
/-! DEFINITION. Arithmetic, logic, register moves and address loads (42_arithmetic_logic.md R120 to R134). Every meaning is given
the state with pc at the instruction's own address and makes phases 3 and 4 of the step (log entry 29). -/

namespace Sys2Proof.Machine

/-! ### The computations on words -/

/-- The count of a shift under the spec's `SHIFT_LAW`: the low five bits of `src` (42_arithmetic_logic.md R129, R130; log entry
18). -/
def shiftCount (b : Word) : Nat := (b.extractLsb' 0 5).toNat

/-- SHL (42_arithmetic_logic.md R129). Under no law a count outside 0 to 31 gives a free value (U14; log entry 31). -/
def shiftLeft (law : ShiftLaw) (a b : Word) : Word :=
  match law with
  | .modulo32 => a <<< shiftCount b
  | .unstated => if b.toNat < 32 then a <<< b.toNat else Config.openShiftLeft a b

/-- SHR, zeros entering at the left (42_arithmetic_logic.md R130). Under no law the bits that enter are free, which for a count of
32 or more are all bits (U14; log entry 31). -/
def shiftRight (law : ShiftLaw) (a b : Word) : Word :=
  match law with
  | .modulo32 => a >>> shiftCount b
  | .unstated => (a >>> b.toNat) ||| (Config.openShiftFill a b &&& ~~~((-1#32) >>> b.toNat))

/-- DIV for a divisor that is not 0: the signed quotient rounded toward zero, modulo 2^32 (42_arithmetic_logic.md R125;
`DIV_LAW`, log entry 17). Under no law it is free where an operand is negative (U12; log entry 31). -/
def quotient (law : DivLaw) (a b : Word) : Word :=
  match law with
  | .truncate => a.sdiv b
  | .unstated => if a.msb || b.msb then Config.openQuotient a b else a.sdiv b

/-- MOD for a divisor that is not 0: the remainder of that division, which has the sign of the dividend
(42_arithmetic_logic.md R126; `DIV_LAW`, log entry 17). Under no law it is free where an operand is negative (U12; log entry
31). -/
def remainder (law : DivLaw) (a b : Word) : Word :=
  match law with
  | .truncate => a.srem b
  | .unstated => if a.msb || b.msb then Config.openRemainder a b else a.srem b

/-! ### Shared shapes -/

/-- The common shape of the two-operand R-format operations: `x[rb] <- f(x[rb], src)` (42_arithmetic_logic.md R120). -/
def aluOp (f : Word → Word → Word) (rb : Reg) (src : Src) (s : State) : State :=
  s.advance.setReg rb (f (s.reg rb) (s.srcVal src))

/-- The same for DIV and MOD, which raise `DivisionByZero` when the value of `src` is 0 (60_exceptions.md R173). -/
def divideOp (f : Word → Word → Word) (rb : Reg) (src : Src) (s : State) : State :=
  if s.srcVal src = 0#32 then s.advance.raise s.pc .divisionByZero else aluOp f rb src s

/-! ### The instructions -/

/-- MOV (42_arithmetic_logic.md R121). The old `x[rb]` is not read. -/
def execMov (rb : Reg) (src : Src) (s : State) : Host.Outcome State Fault Refusal :=
  .next (aluOp (fun _ b => b) rb src s)

/-- ADD (42_arithmetic_logic.md R122). -/
def execAdd (rb : Reg) (src : Src) (s : State) : Host.Outcome State Fault Refusal :=
  .next (aluOp (fun a b => a + b) rb src s)

/-- SUB (42_arithmetic_logic.md R123). -/
def execSub (rb : Reg) (src : Src) (s : State) : Host.Outcome State Fault Refusal :=
  .next (aluOp (fun a b => a - b) rb src s)

/-- MUL (42_arithmetic_logic.md R124). -/
def execMul (rb : Reg) (src : Src) (s : State) : Host.Outcome State Fault Refusal :=
  .next (aluOp (fun a b => a * b) rb src s)

/-- DIV (42_arithmetic_logic.md R125). -/
def execDiv (rb : Reg) (src : Src) (s : State) : Host.Outcome State Fault Refusal :=
  .next (divideOp (quotient s.cfg.divLaw) rb src s)

/-- MOD (42_arithmetic_logic.md R126), an operation with an opcode of its own (90_conflicts.md C6). -/
def execMod (rb : Reg) (src : Src) (s : State) : Host.Outcome State Fault Refusal :=
  .next (divideOp (remainder s.cfg.divLaw) rb src s)

/-- AND (42_arithmetic_logic.md R127). -/
def execAnd (rb : Reg) (src : Src) (s : State) : Host.Outcome State Fault Refusal :=
  .next (aluOp (fun a b => a &&& b) rb src s)

/-- OR (42_arithmetic_logic.md R128). -/
def execOr (rb : Reg) (src : Src) (s : State) : Host.Outcome State Fault Refusal :=
  .next (aluOp (fun a b => a ||| b) rb src s)

/-- SHL (42_arithmetic_logic.md R129). -/
def execShl (rb : Reg) (src : Src) (s : State) : Host.Outcome State Fault Refusal :=
  .next (aluOp (shiftLeft s.cfg.shiftLaw) rb src s)

/-- SHR (42_arithmetic_logic.md R130). -/
def execShr (rb : Reg) (src : Src) (s : State) : Host.Outcome State Fault Refusal :=
  .next (aluOp (shiftRight s.cfg.shiftLaw) rb src s)

/-- CMP (42_arithmetic_logic.md R131). -/
def execCmp (rb : Reg) (src : Src) (s : State) : Host.Outcome State Fault Refusal :=
  .next (aluOp compareSigned rb src s)

/-- LAD.a: `x[2] <- target`, no memory access (42_arithmetic_logic.md R132). -/
def execLadA (target : Word) (s : State) : Host.Outcome State Fault Refusal :=
  .next (s.advance.setReg .acc target)

/-- LAD.m: `x[rd] <- x[base] + offset`, no memory access (42_arithmetic_logic.md R133). -/
def execLadM (rd base : Reg) (offset : Word) (s : State) : Host.Outcome State Fault Refusal :=
  .next (s.advance.setReg rd (s.effAddr base offset))

end Sys2Proof.Machine
end

