-- ==== Sys2Proof/Machine/Control.lean ====
section
/-! DEFINITION. Control transfer (41_control_transfer.md R100 to R114). A target outside memory faults at the next fetch, never
at the transferring instruction; there is no delay slot. -/

namespace Sys2Proof.Machine

/-! ### Jumps -/

/-- JMP.a (41_control_transfer.md R100). -/
def execJmpA (target : Word) (s : State) : Host.Outcome State Fault Refusal :=
  .next (s.advance.setPc target)

/-- JMP.r (41_control_transfer.md R101). -/
def execJmpR (src : Src) (s : State) : Host.Outcome State Fault Refusal :=
  .next (s.advance.setPc (s.srcVal src))

/-! ### Call and return -/

/-- A push made by CALL: write at x[0], then decrement x[0]; none where the write raises (41_control_transfer.md R102). -/
def State.pushWord (s : State) (v : Word) : Option State :=
  (s.memWrite (s.reg .sp) v).map fun s₁ => s₁.setReg .sp (s₁.reg .sp - 1#32)

/-- The pseudocode of 41_control_transfer.md R102 for a target that is already read: push the frame pointer, make the stack
pointer the frame pointer, push the return address, transfer. A fault on the second write leaves the first done
(60_exceptions.md R191). -/
def callTo (target : Word) (s : State) : State :=
  match s.advance.pushWord (s.reg .fp) with
  | none => s.advance.raiseMem s.pc (s.reg .sp)
  | some s₁ =>
    let s₂ := s₁.setReg .fp (s₁.reg .sp)
    match s₂.pushWord s₂.pc with
    | none => s₂.raiseMem s.pc (s₂.reg .sp)
    | some s₃ => s₃.setPc target

/-- CALL.a (41_control_transfer.md R102). -/
def execCallA (target : Word) (s : State) : Host.Outcome State Fault Refusal :=
  .next (callTo target s)

/-- CALL.r (41_control_transfer.md R103): the target is read before anything is written. -/
def execCallR (src : Src) (s : State) : Host.Outcome State Fault Refusal :=
  .next (callTo (s.srcVal src) s)

/-- RET (41_control_transfer.md R104; 90_conflicts.md C4): the return address is read in the frame-pointer slot, x[0] becomes the
address above it, and the saved frame pointer is read there without moving x[0] again. A fault on the second read leaves
x[0] changed (60_exceptions.md R191). -/
def execRet (s : State) : Host.Outcome State Fault Refusal :=
  match s.advance.memRead (s.reg .fp) with
  | none => .next (s.advance.raiseMem s.pc (s.reg .fp))
  | some t =>
    let s₁ := s.advance.setReg .sp (s.reg .fp + 1#32)
    match s₁.memRead (s₁.reg .sp) with
    | none => .next (s₁.raiseMem s.pc (s₁.reg .sp))
    | some f => .next ((s₁.setReg .fp f).setPc t)

/-! ### Branches -/

/-- The common part of the branches: where the condition holds of x[2], the displacement is added to the advanced pc
(41_control_transfer.md R107). -/
def branchIf (cond : Word → Bool) (offset : Word) (s : State) : State :=
  if cond (s.reg .acc) then s.advance.setPc (s.advance.pc + offset) else s.advance

/-- BEQ (41_control_transfer.md R108). -/
def execBeq (offset : Word) (s : State) : Host.Outcome State Fault Refusal :=
  .next (branchIf condEq offset s)

/-- BNE (41_control_transfer.md R109). -/
def execBne (offset : Word) (s : State) : Host.Outcome State Fault Refusal :=
  .next (branchIf condNe offset s)

/-- BLT (41_control_transfer.md R110). -/
def execBlt (offset : Word) (s : State) : Host.Outcome State Fault Refusal :=
  .next (branchIf condLt offset s)

/-- BLE (41_control_transfer.md R111). -/
def execBle (offset : Word) (s : State) : Host.Outcome State Fault Refusal :=
  .next (branchIf condLe offset s)

/-- BGT (41_control_transfer.md R112). -/
def execBgt (offset : Word) (s : State) : Host.Outcome State Fault Refusal :=
  .next (branchIf condGt offset s)

/-- BGE (41_control_transfer.md R113). -/
def execBge (offset : Word) (s : State) : Host.Outcome State Fault Refusal :=
  .next (branchIf condGe offset s)

end Sys2Proof.Machine
end

