-- ==== Sys2Proof/Machine/LoadStore.lean ====
section
/-! DEFINITION. The memory forms of MOV (44_load_store.md R150 to R154). -/

namespace Sys2Proof.Machine

/-- A load into a register from a given address; where the address is out of range the register keeps its value. -/
def loadInto (rd : Reg) (ea : Word) (s : State) : State :=
  match s.advance.memRead ea with
  | none => s.advance.raiseMem s.pc ea
  | some v => s.advance.setReg rd v

/-- A store of a register to a given address; where the address is out of range memory keeps its contents. -/
def storeFrom (rd : Reg) (ea : Word) (s : State) : State :=
  match s.advance.memWrite ea (s.reg rd) with
  | none => s.advance.raiseMem s.pc ea
  | some s₁ => s₁

/-- MOV.ld (44_load_store.md R151). -/
def execMovLd (rd base : Reg) (offset : Word) (s : State) : Host.Outcome State Fault Refusal :=
  .next (loadInto rd (s.effAddr base offset) s)

/-- MOV.st (44_load_store.md R152): the field in bits 23-22 names the register whose value is stored. -/
def execMovSt (rd base : Reg) (offset : Word) (s : State) : Host.Outcome State Fault Refusal :=
  .next (storeFrom rd (s.effAddr base offset) s)

/-- MOV.lda (44_load_store.md R153): the destination is x[2]. -/
def execMovLda (target : Word) (s : State) : Host.Outcome State Fault Refusal :=
  .next (loadInto .acc target s)

/-- MOV.sta (44_load_store.md R154): the value stored is x[2]. -/
def execMovSta (target : Word) (s : State) : Host.Outcome State Fault Refusal :=
  .next (storeFrom .acc target s)

end Sys2Proof.Machine
end

