-- ==== Sys2Proof/Machine/Stack.lean ====
section
/-! DEFINITION. PUSH and POP (43_stack.md R140 to R142). The stack pointer is the next free slot and the stack grows toward
lower addresses, so a push writes and then decrements. -/

namespace Sys2Proof.Machine

/-- PUSH (43_stack.md R141): `v <- src; MemWrite(x[0], 1, v); x[0] <- x[0] - 1`. -/
def execPush (src : Src) (s : State) : Host.Outcome State Fault Refusal :=
  match s.advance.memWrite (s.reg .sp) (s.srcVal src) with
  | none => .next (s.advance.raiseMem s.pc (s.reg .sp))
  | some s₁ => .next (s₁.setReg .sp (s₁.reg .sp - 1#32))

/-- POP (43_stack.md R142): `t <- MemRead(x[0] + 1, 1); x[0] <- x[0] + 1; x[rb] <- t`, in this order, so that `POP SP` ends
with the popped value. -/
def execPop (rb : Reg) (s : State) : Host.Outcome State Fault Refusal :=
  match s.advance.memRead (s.reg .sp + 1#32) with
  | none => .next (s.advance.raiseMem s.pc (s.reg .sp + 1#32))
  | some t => .next ((s.advance.setReg .sp (s.reg .sp + 1#32)).setReg rb t)

end Sys2Proof.Machine
end

