-- ==== Sys2Proof/Machine/System.lean ====
section
/-! DEFINITION. SYS and HALT, and the core's side of the system-call boundary (45_system.md R160 to R166). -/

namespace Sys2Proof.Machine

/-! ### The boundary -/

/-- The class the RTS gives a selector, fixed for a run (45_system.md R163). -/
def State.selectorClass (s : State) (sel : Word) : SelectorClass := s.cfg.selectors.classify sel

/-- What the RTS does in an implemented call that presents a selector, x[1] and memory (45_system.md R161): the oldest answer
given beforehand, or else a free value (log entry 9). -/
def State.rtsPerformance (s : State) (sel : Word) : RtsPerformance :=
  match s.rtsScript with
  | p :: _ => p
  | [] => Config.openRtsPerformance s.cfg s.rtsCalls sel (s.reg .fp) s.mem

/-- One performance is used up: the next call is answered anew (log entry 9). -/
def State.rtsDrawn (s : State) : State :=
  { s with rtsScript := s.rtsScript.tail, rtsCalls := s.rtsCalls + 1 }

/-- How far the RTS's accesses got. -/
inductive RtsProgress where
  /-- All were in range; the state has the writes. -/
  | finished (s : State)
  /-- The access to this address was outside memory; the state has the writes made before it. -/
  | outside (s : State) (a : Word)
deriving DecidableEq, Repr

/-- The RTS's accesses in order, each a `MemRead` or a `MemWrite` (20_memory.md R42). -/
def State.rtsAccesses : State → List RtsAccess → RtsProgress
  | s, [] => .finished s
  | s, .read a :: rest => if s.inRange a then State.rtsAccesses s rest else .outside s a
  | s, .write a v :: rest =>
    match s.memWrite a v with
    | none => .outside s a
    | some s₁ => State.rtsAccesses s₁ rest

/-- What the core does with the ending of a performance whose accesses were all in range (45_system.md R160). -/
def finishCall (ending : RtsEnding) (s : State) : Host.Outcome State Fault Refusal :=
  match ending with
  | .ret v => .next (s.setReg .acc v)
  | .exit v => .next (s.setStatus (.exited v))
  | .never => .fault .systemCallNeverAnswers

/-- A call the RTS performs: its accesses, then its ending; an access outside memory is the response `MemFault(a)`
(45_system.md R161; 60_exceptions.md R191: what the RTS wrote before stays). -/
def performCall (sel : Word) (s : State) : Host.Outcome State Fault Refusal :=
  match s.advance.rtsDrawn.rtsAccesses (s.rtsPerformance sel).accesses with
  | .outside s₁ a => .next (s₁.raiseMem s.pc a)
  | .finished s₁ => finishCall (s.rtsPerformance sel).ending s₁

/-! ### The instructions -/

/-- SYS (45_system.md R160): the selector is the value of `src`; the response decides the rest. -/
def execSys (src : Src) (s : State) : Host.Outcome State Fault Refusal :=
  match s.selectorClass (s.srcVal src) with
  | .undefined => .next (s.advance.raise s.pc .undefinedSystemCall)
  | .unsupported => .next (s.advance.raise s.pc .unsupportedSystemCall)
  | .implemented => performCall (s.srcVal src) s

/-- HALT (45_system.md R164): `status <- Halted(x[2])`; pc stays advanced. -/
def execHalt (s : State) : Host.Outcome State Fault Refusal :=
  .next (s.advance.setStatus (.halted (s.reg .acc)))

end Sys2Proof.Machine
end

