-- ==== Sys2Proof/Machine/Dispatch.lean ====
section
/-! DEFINITION. The dispatch of 40_fetch_decode_execute.md R85: one arm per instruction, each one call of its meaning. -/

namespace Sys2Proof.Machine

def exec (i : Instr) (s : State) : Host.Outcome State Fault Refusal :=
  match i with
  | .mov rb src => Sys2Proof.Machine.execMov rb src s
  | .add rb src => Sys2Proof.Machine.execAdd rb src s
  | .sub rb src => Sys2Proof.Machine.execSub rb src s
  | .mul rb src => Sys2Proof.Machine.execMul rb src s
  | .div rb src => Sys2Proof.Machine.execDiv rb src s
  | .mod rb src => Sys2Proof.Machine.execMod rb src s
  | .and rb src => Sys2Proof.Machine.execAnd rb src s
  | .or rb src => Sys2Proof.Machine.execOr rb src s
  | .shl rb src => Sys2Proof.Machine.execShl rb src s
  | .shr rb src => Sys2Proof.Machine.execShr rb src s
  | .cmp rb src => Sys2Proof.Machine.execCmp rb src s
  | .push src => Sys2Proof.Machine.execPush src s
  | .pop rb => Sys2Proof.Machine.execPop rb s
  | .jmpR src => Sys2Proof.Machine.execJmpR src s
  | .callR src => Sys2Proof.Machine.execCallR src s
  | .ret => Sys2Proof.Machine.execRet s
  | .sys src => Sys2Proof.Machine.execSys src s
  | .halt => Sys2Proof.Machine.execHalt s
  | .movLd rd base offset => Sys2Proof.Machine.execMovLd rd base offset s
  | .movSt rd base offset => Sys2Proof.Machine.execMovSt rd base offset s
  | .ladM rd base offset => Sys2Proof.Machine.execLadM rd base offset s
  | .ladA target => Sys2Proof.Machine.execLadA target s
  | .jmpA target => Sys2Proof.Machine.execJmpA target s
  | .callA target => Sys2Proof.Machine.execCallA target s
  | .movLda target => Sys2Proof.Machine.execMovLda target s
  | .movSta target => Sys2Proof.Machine.execMovSta target s
  | .beq offset => Sys2Proof.Machine.execBeq offset s
  | .bne offset => Sys2Proof.Machine.execBne offset s
  | .blt offset => Sys2Proof.Machine.execBlt offset s
  | .ble offset => Sys2Proof.Machine.execBle offset s
  | .bgt offset => Sys2Proof.Machine.execBgt offset s
  | .bge offset => Sys2Proof.Machine.execBge offset s

end Sys2Proof.Machine
end

