-- ==== Sys2Proof/Machine/Step.lean ====
section
/-! DEFINITION. The fetch-decode-execute step (40_fetch_decode_execute.md R80 to R88). -/

namespace Sys2Proof.Machine

/-- One step (40_fetch_decode_execute.md R80): fetch at pc, decode, then advance and execute, which `exec` does from the state
with pc at the instruction's own address. A fetch outside memory and an illegal word take their faults (R81, R82); a machine
whose run has ended takes no step (10_state.md R17). -/
def step (s : State) : Host.Outcome State Fault Refusal :=
  match s.status with
  | .running =>
    match s.fetch with
    | none => .next (s.raiseMem s.pc s.pc)
    | some w =>
      match decode s.cfg.opc s.cfg.raDecode w with
      | .illegal _ => .next (s.advance.raise s.pc .illegalInstruction)
      | .instr i => exec i s
  | .halted _ => .fault .runEnded
  | .exited _ => .fault .runEnded
  | .fault _ => .fault .runEnded

/-- The state with an instruction stored where the next step fetches, and a status in which that step happens. -/
def State.withFetchWord (s : State) (nbits w : Nat) : State :=
  (s.placeWord (tableWord nbits w)).setStatus .running

end Sys2Proof.Machine
end

