-- ==== Sys2Proof/Machine/HostInterface.lean ====
section
/-! DEFINITION. What the host does around a run: load, invocation of an entry point, and reading the terminal result
(70_reset_and_hazards.md R200, R201; 60_exceptions.md R192). -/

namespace Sys2Proof.Machine

/-- Invocation, that is reset at an entry point: registers, pc, trap and status are set and memory is not touched
(70_reset_and_hazards.md R201; log entry 24). -/
def State.invoke (s : State) (entry : Word) : State :=
  { s with
    sp := s.cfg.initSp
    fp := s.cfg.initFp
    acc := s.cfg.initAcc
    sec := s.cfg.initSec
    pc := entry
    trap := none
    status := .running }

/-- Creation of the machine state: the image is copied to address 0 and every other word is `MEM_FILL`. A configuration outside
the bounds of MEMSIZE, DATA_START and the image is refused (70_reset_and_hazards.md R200; U21), and so is one whose opcode
assignment or exit statuses break their constraint: DESIGN CHOICE (log entry 23). The state is the invocation at the
configuration's entry. -/
def State.load (cfg : Config) : Except Refusal State :=
  if cfg.ok then
    .ok (State.invoke { State.reset with cfg := cfg, mem := Memory.writeWords cfg.memFill [] 0 cfg.image } cfg.entry)
  else
    .error .configurationNotDescribed

/-- The exit status a map gives a fatal kind. -/
def exitStatusOf (e : ExitCodes) : FaultKind → Int
  | .illegalInstruction => e.illegalInstruction
  | .illegalMemoryAccess => e.illegalMemoryAccess
  | .divisionByZero => e.divisionByZero
  | .undefinedSystemCall => e.undefinedSystemCall
  | .unsupportedSystemCall => e.unsupportedSystemCall

/-- What the host obtains when a run ends (60_exceptions.md R192). -/
inductive HostResult where
  /-- HALT: the accumulator value is the exit status, all 32 bits (45_system.md R164). -/
  | success (exitStatus : Word)
  /-- An exiting system call: the status the RTS gave (45_system.md R161). -/
  | exited (exitStatus : Word)
  /-- A fatal kind: its exit status, and the address a diagnostic names: the trap address of a memory fault, otherwise the
  faulting instruction's (90_conflicts.md C9). -/
  | fatal (exitStatus : Int) (address : Word)
deriving DecidableEq, Repr

/-- The terminal result, none while the run goes on (60_exceptions.md R192, 70_reset_and_hazards.md R206). -/
def State.hostResult (s : State) : Option HostResult :=
  match s.status with
  | .running => none
  | .halted v => some (.success v)
  | .exited v => some (.exited v)
  | .fault k => some (.fatal (exitStatusOf s.cfg.exitCodes k) (s.trap.getD s.pc))

end Sys2Proof.Machine
end

