-- ==== Sys2Proof/Safety.lean ====
section
/-! DEFINITION. The terms that claims use: what a sound state and a safe run are, and what an instruction may change. -/

namespace Sys2Proof.Machine

/-! ### Sound states and safe runs -/

/-- The trap flag and the status agree: `trap` is set exactly when the run ended with an illegal memory access, and then it
holds an address outside memory (10_state.md R16, 60_exceptions.md R172). -/
abbrev State.trapAgrees (s : State) : Prop :=
  match s.trap with
  | none => s.status ≠ .fault .illegalMemoryAccess
  | some a => s.status = .fault .illegalMemoryAccess ∧ s.cfg.memSize ≤ a.toNat

/-- The invariant of the machine: the configuration is one the spec describes (70_reset_and_hazards.md R200), memory is in
its canonical form and lists only words of the array (10_state.md R20), and the trap flag agrees with the status. -/
structure State.Inv (s : State) : Prop where
  configOk : s.cfg.ok = true
  memWf : s.mem.wf s.cfg.memFill
  memWithin : s.mem.within s.cfg.memSize
  trapAgrees : s.trapAgrees

/-- The states a run reaches from a state, the state itself among them (40_fetch_decode_execute.md R87). -/
inductive Reaches (s : State) : State → Prop where
  | start : Reaches s s
  | next {t t' : State} : Reaches s t → step t = .next t' → Reaches s t'

/-- A safe run: no state it reaches has taken a fault. -/
def State.SafeRun (s : State) : Prop := ∀ t k, Reaches s t → t.status ≠ .fault k

/-- The instruction the next step executes, none where the fetch faults or the word is illegal. -/
def State.currentInstr (s : State) : Option Instr :=
  match s.fetch with
  | none => none
  | some w =>
    match decode s.cfg.opc s.cfg.raDecode w with
    | .instr i => some i
    | .illegal _ => none

/-- The effect of several instructions one after another, without their fetches; none where one of them stops or ends the
run. -/
def execAll : List Instr → State → Option State
  | [], s => some s
  | i :: is, s =>
    match exec i s with
    | .next t => if t.status = .running then execAll is t else none
    | .fault _ => none
    | .refused _ => none

/-! ### What an instruction changes -/

/-- Trap flag, status, configuration and the RTS's inputs are as before. -/
structure State.SameRest (s t : State) : Prop where
  trap : t.trap = s.trap
  status : t.status = s.status
  cfg : t.cfg = s.cfg
  rtsScript : t.rtsScript = s.rtsScript
  rtsCalls : t.rtsCalls = s.rtsCalls

/-- One register is written, pc is advanced by one word, and nothing else changes. -/
structure State.WritesOnly (s t : State) (rd : Reg) (v : Word) : Prop where
  written : t.reg rd = v
  others : ∀ q, q ≠ rd → t.reg q = s.reg q
  pc : t.pc = s.pc + 1#32
  mem : t.mem = s.mem
  rest : s.SameRest t

/-- pc is set and nothing else changes. -/
structure State.TransfersOnly (s t : State) (target : Word) : Prop where
  regs : ∀ q, t.reg q = s.reg q
  pc : t.pc = target
  mem : t.mem = s.mem
  rest : s.SameRest t

/-- One word of memory is written and every byte outside it reads as before. -/
structure State.StoresOnly (s t : State) (a : Nat) (v : Word) : Prop where
  stored : t.readWord a = v
  others : ∀ k, k < 4 * a ∨ 4 * a + 4 ≤ k → t.readByte k = s.readByte k

/-- Two words of memory at different addresses are written and every byte outside them reads as before. -/
structure State.StoresTwo (s t : State) (a : Nat) (v : Word) (b : Nat) (w : Word) : Prop where
  first : t.readWord a = v
  second : t.readWord b = w
  others : ∀ k, (k < 4 * a ∨ 4 * a + 4 ≤ k) → (k < 4 * b ∨ 4 * b + 4 ≤ k) → t.readByte k = s.readByte k

/-- A fault other than a memory fault is taken: status records it, pc is the instruction's own address, and nothing else
changes (60_exceptions.md R178). -/
structure State.TakesFault (s t : State) (kind : FaultKind) : Prop where
  status : t.status = .fault kind
  pc : t.pc = s.pc
  regs : ∀ q, t.reg q = s.reg q
  mem : t.mem = s.mem
  trap : t.trap = s.trap
  cfg : t.cfg = s.cfg
  rtsScript : t.rtsScript = s.rtsScript
  rtsCalls : t.rtsCalls = s.rtsCalls

/-- An illegal memory access at an address is taken: status and trap record it and pc is the instruction's own address
(60_exceptions.md R172, R178). What the instruction changed before is not said here. -/
structure State.EndsInMemFault (s t : State) (a : Word) : Prop where
  status : t.status = .fault .illegalMemoryAccess
  trap : t.trap = some a
  pc : t.pc = s.pc
  cfg : t.cfg = s.cfg

/-- An illegal memory access is taken and nothing was changed before it. -/
structure State.TakesMemFault (s t : State) (a : Word) : Prop where
  fault : s.EndsInMemFault t a
  regs : ∀ q, t.reg q = s.reg q
  mem : t.mem = s.mem
  rtsScript : t.rtsScript = s.rtsScript
  rtsCalls : t.rtsCalls = s.rtsCalls

/-- The registers an instruction may write: its destination field and the implicit writes of 10_state.md section 2. -/
def writtenRegs : Instr → List Reg
  | .mov rb _ => [rb]
  | .add rb _ => [rb]
  | .sub rb _ => [rb]
  | .mul rb _ => [rb]
  | .div rb _ => [rb]
  | .mod rb _ => [rb]
  | .and rb _ => [rb]
  | .or rb _ => [rb]
  | .shl rb _ => [rb]
  | .shr rb _ => [rb]
  | .cmp rb _ => [rb]
  | .push _ => [.sp]
  | .pop rb => [.sp, rb]
  | .jmpR _ => []
  | .callR _ => [.sp, .fp]
  | .ret => [.sp, .fp]
  | .sys _ => [.acc]
  | .halt => []
  | .movLd rd _ _ => [rd]
  | .movSt _ _ _ => []
  | .ladM rd _ _ => [rd]
  | .ladA _ => [.acc]
  | .jmpA _ => []
  | .callA _ => [.sp, .fp]
  | .movLda _ => [.acc]
  | .movSta _ => []
  | .beq _ => []
  | .bne _ => []
  | .blt _ => []
  | .ble _ => []
  | .bgt _ => []
  | .bge _ => []

/-- The word addresses that a list of accesses of the RTS writes. -/
def writtenAddrs : List RtsAccess → List Word
  | [] => []
  | .read _ :: rest => writtenAddrs rest
  | .write a _ :: rest => a :: writtenAddrs rest

/-- The word addresses an instruction stores to, computed as its meaning computes them (20_memory.md R37, table). -/
def storedAddrs (i : Instr) (s : State) : List Word :=
  match i with
  | .movSt _ base offset => [s.effAddr base offset]
  | .movSta target => [target]
  | .push _ => [s.reg .sp]
  | .callA _ => [s.reg .sp, s.reg .sp - 1#32]
  | .callR _ => [s.reg .sp, s.reg .sp - 1#32]
  | .sys src => writtenAddrs (s.rtsPerformance (s.srcVal src)).accesses
  | .mov _ _ => []
  | .add _ _ => []
  | .sub _ _ => []
  | .mul _ _ => []
  | .div _ _ => []
  | .mod _ _ => []
  | .and _ _ => []
  | .or _ _ => []
  | .shl _ _ => []
  | .shr _ _ => []
  | .cmp _ _ => []
  | .pop _ => []
  | .jmpR _ => []
  | .ret => []
  | .halt => []
  | .movLd _ _ _ => []
  | .ladM _ _ _ => []
  | .ladA _ => []
  | .jmpA _ => []
  | .movLda _ => []
  | .beq _ => []
  | .bne _ => []
  | .blt _ => []
  | .ble _ => []
  | .bgt _ => []
  | .bge _ => []

/-- The pc an instruction leaves where it takes no fault (10_state.md R15, table). -/
def pcAfter (i : Instr) (s : State) : Word :=
  match i with
  | .jmpA target => target
  | .callA target => target
  | .jmpR src => s.srcVal src
  | .callR src => s.srcVal src
  | .ret => s.readWord (s.reg .fp).toNat
  | .beq offset => if s.reg .acc = 0#32 then s.pc + 1#32 + offset else s.pc + 1#32
  | .bne offset => if s.reg .acc = 0#32 then s.pc + 1#32 else s.pc + 1#32 + offset
  | .blt offset => if (s.reg .acc).toInt < 0 then s.pc + 1#32 + offset else s.pc + 1#32
  | .ble offset => if (s.reg .acc).toInt ≤ 0 then s.pc + 1#32 + offset else s.pc + 1#32
  | .bgt offset => if (s.reg .acc).toInt ≤ 0 then s.pc + 1#32 else s.pc + 1#32 + offset
  | .bge offset => if (s.reg .acc).toInt < 0 then s.pc + 1#32 else s.pc + 1#32 + offset
  | .mov _ _ => s.pc + 1#32
  | .add _ _ => s.pc + 1#32
  | .sub _ _ => s.pc + 1#32
  | .mul _ _ => s.pc + 1#32
  | .div _ _ => s.pc + 1#32
  | .mod _ _ => s.pc + 1#32
  | .and _ _ => s.pc + 1#32
  | .or _ _ => s.pc + 1#32
  | .shl _ _ => s.pc + 1#32
  | .shr _ _ => s.pc + 1#32
  | .cmp _ _ => s.pc + 1#32
  | .push _ => s.pc + 1#32
  | .pop _ => s.pc + 1#32
  | .sys _ => s.pc + 1#32
  | .halt => s.pc + 1#32
  | .movLd _ _ _ => s.pc + 1#32
  | .movSt _ _ _ => s.pc + 1#32
  | .ladM _ _ _ => s.pc + 1#32
  | .ladA _ => s.pc + 1#32
  | .movLda _ => s.pc + 1#32
  | .movSta _ => s.pc + 1#32

/-! ### The accesses of a system call -/

/-- The address of an access. -/
def accessAddr : RtsAccess → Word
  | .read a => a
  | .write a _ => a

/-- Every access of a list lies in memory. -/
def State.allInRange (s : State) (accesses : List RtsAccess) : Prop := ∀ x ∈ accesses, s.inRange (accessAddr x) = true

/-- The content of a word after the writes of a list of accesses: the last write to it, else the old content. -/
def wordAfter : List RtsAccess → Nat → Word → Word
  | [], _, old => old
  | .read _ :: rest, b, old => wordAfter rest b old
  | .write a v :: rest, b, old => wordAfter rest b (if a.toNat = b then v else old)

end Sys2Proof.Machine
end

