-- ==== Sys2Proof/Certificates/Slice0/Obligations.lean ====
section
/-! DEFINITION. The statements for the provers. Each docstring names the rule of spec/ it formalises. A statement that rests on
one of the spec's own decisions D<n> (92_eei_decisions.md) or on a choice of the model says so and names the log entry. The
statements hold for every value of the parameters of the configuration (00_scope.md R3) unless they name the spec's value of
one. -/

open Sys2Proof Sys2Proof.Machine

/-! ### Encoding -/

/-- 30_encoding.md R67: under every injective opcode assignment and either reading of the source register, decoding the encoding of
a legal field combination gives the instruction back; the spec's own assignment is one of these (D1, log entry 13); and the
converse does not hold, since two different words decode to one instruction. -/
def Obligations.DecodeEncodeRoundTrip : Prop :=
  (∀ (o : OpcodeTable) (ra : RaDecode) (i : Instr), o.ok = true → i.wf ra = true → decode o ra (encode o ra i) = .instr i) ∧
  OpcodeTable.standard.ok = true ∧
  ∃ w w' : Word, w ≠ w' ∧ ∃ i, decode .standard .flagField w = .instr i ∧ decode .standard .flagField w' = .instr i

/-- 30_encoding.md R54, R58: the two sign extensions, as the spec computes them and as integers. -/
def Obligations.SignExtensionOfFields : Prop :=
  (∀ v : BitVec 20, sext20 v = (if v.msb then v.setWidth 32 + 0xFFF00000#32 else v.setWidth 32) ∧
    (sext20 v).toInt = v.toInt ∧ -524288 ≤ (sext20 v).toInt ∧ (sext20 v).toInt ≤ 524287) ∧
  (∀ v : BitVec 24, sext24 v = (if v.msb then v.setWidth 32 + 0xFF000000#32 else v.setWidth 32) ∧
    (sext24 v).toInt = v.toInt) ∧
  sext20 0xFFFFF#20 = 0xFFFFFFFF#32 ∧ sext24 0xFFFFFF#24 = 0xFFFFFFFF#32

/-- 10_state.md R11, R13, 30_encoding.md R59: whatever word is decoded, under whatever assignment, the operands are ones the fields
can hold; in particular register 3 is never a register-mode source under the spec's reading (its decision D3). -/
def Obligations.DecodedInstructionsAreWellFormed : Prop :=
  ∀ (o : OpcodeTable) (ra : RaDecode) (w : Word) (i : Instr), decode o ra w = .instr i → i.wf ra = true

/-- 30_encoding.md R65: the illegal words are exactly those of the three listed groups of opcode bytes (the spec's own opcode
assignment, D1 and D33, log entry 13). -/
def Obligations.IllegalWordsExactly : Prop :=
  ∀ (ra : RaDecode) (w : Word), (∃ why, decode .standard ra w = .illegal why) ↔
    ∃ b : Nat, b = w.toNat / 2 ^ 24 ∧
      (b = 0x00 ∨ (0x0C ≤ b ∧ b ≤ 0x0F) ∨ (0x17 ≤ b ∧ b ≤ 0x1F) ∨ (0x23 ≤ b ∧ b ≤ 0x7F) ∨
        (0xD0 ≤ b ∧ b ≤ 0xDF) ∨ (0xE0 ≤ b ∧ b ≤ 0xEF) ∨ 0xF6 ≤ b)

/-- 30_encoding.md R66 (the spec's decision D4, log entry 15; the second reading of the source register is D3, log entry 14): the
bits an instruction does not use do not change what the word decodes to, under every injective assignment. -/
def Obligations.UnusedBitsAreIgnored : Prop :=
  ∀ (o : OpcodeTable) (ra : RaDecode) (w w' : Word), o.ok = true → opbField w = opbField w' →
    (opbField w ∈ o.rNumbers → rbField w = rbField w' → raField w ≠ 3#2 → raField w' ≠ 3#2 →
      (ra = .flagField → raField w = raField w') → (ra = .belowFlag → lowRaField w = lowRaField w') →
      decode o ra w = decode o ra w') ∧
    (opbField w ∈ [o.push, o.jmpR, o.callR, o.sys] → raField w = raField w' → litField w = litField w' →
      decode o ra w = decode o ra w') ∧
    (opbField w = o.pop → rbField w = rbField w' → decode o ra w = decode o ra w') ∧
    (opbField w ∈ [o.ret, o.halt] → decode o ra w = decode o ra w')

/-- 30_encoding.md R61 to R64 and the decoder vectors of 95_test_vectors.md part 2 (opcode numbers: the spec's decision D1): one
word of each format and one with ignored bits; and one word of the other reading of the source register (D3, log entry 14). -/
def Obligations.DecodesSampleWords : Prop :=
  decode .standard .flagField 0x05BFFC18#32 = .instr (.div .acc (.imm (wrap32 (-1000)))) ∧
  decode .standard .flagField 0x01A12345#32 = .instr (.mov .acc (.reg .acc)) ∧
  decode .standard .flagField 0x10E00000#32 = .instr (.push (.reg .acc)) ∧
  decode .standard .flagField 0x1173FFFF#32 = .instr (.pop .fp) ∧
  decode .standard .flagField 0x21BFFFFF#32 = .instr (.movSt .acc .sec (wrap32 (-1))) ∧
  decode .standard .flagField 0x8FFFFFFF#32 = .instr (.ladA 0x0FFFFFFF#32) ∧
  decode .standard .flagField 0xF1FFFFFD#32 = .instr (.bne (wrap32 (-3))) ∧
  decode .standard .flagField 0x15300001#32 = .instr (.sys (.imm 1#32)) ∧
  decode .standard .flagField 0xD0000000#32 = .illegal .selectorUnassigned ∧
  decode .standard .belowFlag 0x018C0000#32 = .instr (.mov .acc (.reg .sec))

/-! ### The step -/

/-- 40_fetch_decode_execute.md R80, R85: where the word at pc decodes to an instruction, the step of a running machine is that
instruction's meaning at this state. The meaning itself advances pc first (log entry 29), so nothing is added around it. -/
def Obligations.StepRunsDecodedInstruction : Prop :=
  ∀ (s : State) (i : Instr), s.status = .running → s.inRange s.pc = true →
    decode s.cfg.opc s.cfg.raDecode (s.readWord s.pc.toNat) = .instr i → step s = exec i s

/-- 40_fetch_decode_execute.md R81 (the spec's decision D18, log entry 22): a fetch at an address that is not below MEMSIZE
ends the run with an illegal memory access at pc, which keeps its value. -/
def Obligations.FetchOutsideMemoryFaults : Prop :=
  ∀ s : State, s.status = .running → s.cfg.memSize ≤ s.pc.toNat →
    ∃ t, step s = .next t ∧ s.TakesMemFault t s.pc

/-- 60_exceptions.md R171: an illegal word ends the run when it is executed; pc is set back to its address and no register, no
memory word and not trap changes. Only the opcode byte decides whether a word is illegal. -/
def Obligations.IllegalWordFaults : Prop :=
  (∀ (s : State) (why : IllegalWord), s.status = .running → s.inRange s.pc = true →
    decode s.cfg.opc s.cfg.raDecode (s.readWord s.pc.toNat) = .illegal why →
    ∃ t, step s = .next t ∧ s.TakesFault t .illegalInstruction ∧ step t = .fault .runEnded) ∧
  ∀ (o : OpcodeTable) (ra : RaDecode) (w w' : Word), opbField w = opbField w' →
    ((∃ why, decode o ra w = .illegal why) ↔ ∃ why, decode o ra w' = .illegal why)

/-- 60_exceptions.md R190, 10_state.md R17: a machine whose status is a fault, or any other than running, takes no step; the
only way on is the host's invocation, which starts a new run; no second fault can occur. -/
def Obligations.EndedRunTakesNoStep : Prop :=
  (∀ s : State, s.status ≠ .running → step s = .fault .runEnded ∧ ∀ t, Reaches s t → t = s) ∧
  ∀ (s : State) (entry : Word), (s.invoke entry).status = .running ∧ (s.invoke entry).trap = none ∧
    (s.invoke entry).pc = entry

/-- 40_fetch_decode_execute.md R86 to R88, 00_scope.md R6 (the spec's decision D29): a running core whose current instruction is
not a SYS always has a next state, and one whose current instruction is a SYS lacks one only where the RTS never answers. -/
def Obligations.RunningCoreHasNextState : Prop :=
  ∀ s : State, s.status = .running →
    (∃ t, step s = .next t) ∨
    (step s = .fault .systemCallNeverAnswers ∧
      ∃ src, s.currentInstr = some (.sys src) ∧ s.selectorClass (s.srcVal src) = .implemented ∧
        (s.rtsPerformance (s.srcVal src)).ending = .never)

/-- 20_memory.md R41: after a store, the word stored is what a fetch from that address reads, so the next step runs it. -/
def Obligations.StoreIsSeenByNextFetch : Prop :=
  ∀ (s t : State) (rd base : Reg) (offset : Word) (i : Instr),
    exec (.movSt rd base offset) s = .next t → t.status = .running → t.pc = s.effAddr base offset →
    decode s.cfg.opc s.cfg.raDecode (s.reg rd) = .instr i → step t = exec i t

/-! ### Reset, load and the host -/

/-- 10_state.md R23, R24 (register values and fill: the spec's decisions D22 and D23, log entries 2 and 4): every field right after
reset, which is the state that load makes of the default configuration. MEMSIZE itself, the empty image and the exit
statuses of that configuration are the model's choice (log entries 3 and 25), and the statement holds MEMSIZE open as the
configuration's. -/
def Obligations.ResetState : Prop :=
  State.reset.reg .sp = wrap32 (State.reset.cfg.memSize - 1) ∧ State.reset.reg .fp = wrap32 (State.reset.cfg.memSize - 1) ∧
  State.reset.reg .acc = 0#32 ∧ State.reset.reg .sec = 0#32 ∧ State.reset.pc = 0#32 ∧
  State.reset.trap = none ∧ State.reset.status = .running ∧ (∀ a, State.reset.readWord a = 0#32) ∧
  State.load Config.default = .ok State.reset

/-- 70_reset_and_hazards.md R201 (the spec's decisions D22 and D37, log entries 4 and 24): an invocation sets registers to their
parameters, pc, trap and status, and touches neither memory nor the configuration; the spec's values of the parameters are
MEMSIZE - 1 for the stack and frame pointer and 0 for the others. -/
def Obligations.InvocationSetsRegistersKeepsMemory : Prop :=
  (∀ (s : State) (entry : Word),
    (s.invoke entry).reg .sp = s.cfg.initSp ∧ (s.invoke entry).reg .fp = s.cfg.initFp ∧
    (s.invoke entry).reg .acc = s.cfg.initAcc ∧ (s.invoke entry).reg .sec = s.cfg.initSec ∧ (s.invoke entry).pc = entry ∧
    (s.invoke entry).trap = none ∧ (s.invoke entry).status = .running ∧
    (∀ k, (s.invoke entry).readByte k = s.readByte k) ∧ (s.invoke entry).cfg = s.cfg) ∧
  ∀ (memSize dataStart : Nat) (image : List Word) (selectors : SelectorTable),
    let c := Config.standard memSize dataStart image selectors
    c.initSp = wrap32 ((memSize - 1 : Nat) : Int) ∧ c.initFp = wrap32 ((memSize - 1 : Nat) : Int) ∧
      c.initAcc = 0#32 ∧ c.initSec = 0#32

/-- 70_reset_and_hazards.md R200, 00_scope.md R3, 10_state.md R23 (the spec's decisions D22 to D25, log entries 2 and 4): load
copies the image to address 0, fills the rest with `MEM_FILL` and starts at the entry in a state that meets the invariant. It
is refused where MEMSIZE, DATA_START or the image is out of bounds, which the spec asks for (R200, its decision D24, U21 of
93_implementation_defined.md). That it is also refused where the opcode assignment is not injective or the exit statuses are
not distinct and nonzero, and nowhere else, is the model's choice (DESIGN CHOICE, log entry 23). -/
def Obligations.LoadFillsMemory : Prop :=
  ∀ cfg : Config,
    if 1 ≤ cfg.memSize ∧ cfg.memSize ≤ 2 ^ 28 ∧ cfg.dataStart ≤ cfg.memSize ∧ cfg.image.length ≤ cfg.memSize ∧
        cfg.opc.ok = true ∧ cfg.exitCodes.ok = true then
      ∃ s, State.load cfg = .ok s ∧ s.Inv ∧ s.cfg = cfg ∧ s.pc = cfg.entry ∧ s.status = .running ∧ s.trap = none ∧
        s.reg .sp = cfg.initSp ∧ s.reg .fp = cfg.initFp ∧ s.reg .acc = cfg.initAcc ∧ s.reg .sec = cfg.initSec ∧
        ∀ a, s.readWord a = cfg.image.getD a cfg.memFill
    else State.load cfg = .error .configurationNotDescribed

/-- 60_exceptions.md R192 (the exit statuses are open integers, D26, log entry 25; the address is 90_conflicts.md C9): the host's
result of an ended run, with a nonzero status of its own for each fatal kind and, in a sound state, the trap address for a
memory fault. -/
def Obligations.HostSeesDistinctFailures : Prop :=
  ∀ s : State, s.Inv →
    (s.status = .running → s.hostResult = none) ∧
    (∀ v, s.status = .halted v → s.hostResult = some (.success v)) ∧
    (∀ v, s.status = .exited v → s.hostResult = some (.exited v)) ∧
    (∀ k, s.status = .fault k → ∃ n : Int, n = exitStatusOf s.cfg.exitCodes k ∧ n ≠ 0 ∧
      (∀ k', exitStatusOf s.cfg.exitCodes k' = n → k' = k) ∧
      (k = .illegalMemoryAccess → ∃ a, s.trap = some a ∧ s.hostResult = some (.fatal n a)) ∧
      (k ≠ .illegalMemoryAccess → s.hostResult = some (.fatal n s.pc)))

/-! ### Invariants and whole-machine rules -/

/-- The invariant holds right after reset (10_state.md R20, R16, 70_reset_and_hazards.md R200, 00_scope.md R3); the default
configuration is the model's choice (log entries 3 and 25). -/
def Obligations.ResetMeetsInvariant : Prop := State.reset.Inv

/-- 10_state.md R16, R19, R20, R21, 60_exceptions.md R172, 70_reset_and_hazards.md R200, 00_scope.md R3: every step keeps the
invariant: the configuration stays one the spec describes, memory keeps its canonical form (the model's, log entry 1) and
lists only words below MEMSIZE, and trap is set exactly when the run ended with an illegal memory access, to an address
outside memory. -/
def Obligations.StepKeepsInvariant : Prop :=
  ∀ s t : State, s.Inv → step s = .next t → t.Inv

/-- 10_state.md R19, R21, 00_scope.md R3, 45_system.md R163: along a run nothing changes the configuration, so the partition of the
selectors is fixed. -/
def Obligations.RunKeepsConfiguration : Prop :=
  ∀ s t : State, Reaches s t → t.cfg = s.cfg ∧ ∀ sel, t.selectorClass sel = s.selectorClass sel

/-- 10_state.md R12, R13 (implicit uses: the spec's decisions D7 and D8, log entry 16): an instruction, faulting or not, writes
no register but its destination and the implicit ones of the table. -/
def Obligations.RegisterFrame : Prop :=
  ∀ (i : Instr) (s t : State), exec i s = .next t → ∀ r, r ∉ writtenRegs i → t.reg r = s.reg r

/-- 20_memory.md R37 (table), R42: an instruction, faulting or not, changes no byte of memory outside the words it stores to. -/
def Obligations.MemoryFrame : Prop :=
  ∀ (i : Instr) (s t : State), exec i s = .next t →
    ∀ k, (∀ a ∈ storedAddrs i s, k < 4 * a.toNat ∨ 4 * a.toNat + 4 ≤ k) → t.readByte k = s.readByte k

/-- 10_state.md R16 to R19, R21: an instruction that takes no fault leaves trap alone, and the status too unless it is HALT or SYS;
a fault other than a memory fault leaves trap alone; the configuration never changes, and the RTS's inputs only in SYS. -/
def Obligations.StatusAndTrapFrame : Prop :=
  ∀ (i : Instr) (s t : State), exec i s = .next t →
    t.cfg = s.cfg ∧
    (t.status ≠ .fault .illegalMemoryAccess → t.trap = s.trap) ∧
    (i ≠ .halt → (∀ src, i ≠ .sys src) → (∀ k, t.status ≠ .fault k) → t.status = s.status) ∧
    ((∀ src, i ≠ .sys src) → t.rtsScript = s.rtsScript ∧ t.rtsCalls = s.rtsCalls)

/-- 10_state.md R15 (pc after a fault: the spec's decision D19, log entry 20): where a step leaves pc, by instruction, and that a
step which takes a fault leaves it at the instruction's own address. -/
def Obligations.PcAfterStep : Prop :=
  ∀ s t : State, step s = .next t →
    (∀ i, s.currentInstr = some i → (∀ k, t.status ≠ .fault k) → t.pc = pcAfter i s) ∧
    (∀ k, t.status = .fault k → t.pc = s.pc)

/-- 60_exceptions.md R170 (table), R177: what a step that ends in each fatal kind was about to do. -/
def Obligations.FaultCauses : Prop :=
  ∀ (s t : State) (k : FaultKind), s.status = .running → step s = .next t → t.status = .fault k →
    match k with
    | .illegalInstruction => ∃ w why, s.fetch = some w ∧ decode s.cfg.opc s.cfg.raDecode w = .illegal why
    | .illegalMemoryAccess => ∃ a, t.trap = some a ∧ s.cfg.memSize ≤ a.toNat
    | .divisionByZero => ∃ rb src, (s.currentInstr = some (.div rb src) ∨ s.currentInstr = some (.mod rb src)) ∧
        s.srcVal src = 0#32
    | .undefinedSystemCall => ∃ src, s.currentInstr = some (.sys src) ∧ s.selectorClass (s.srcVal src) = .undefined
    | .unsupportedSystemCall => ∃ src, s.currentInstr = some (.sys src) ∧ s.selectorClass (s.srcVal src) = .unsupported

/-- 70_reset_and_hazards.md R206: a step of a running machine ends the run with `Halted(v)` only by HALT, with `Exited(v)` only by
a system call, and otherwise with a fault; HALT does end it; and a run has ended exactly when the status is not running. -/
def Obligations.RunEndsOnlyByHaltExitOrFault : Prop :=
  ∀ s t : State, s.status = .running → step s = .next t →
    (∀ v, t.status = .halted v → s.currentInstr = some .halt ∧ v = s.reg .acc) ∧
    (∀ v, t.status = .exited v → ∃ src, s.currentInstr = some (.sys src)) ∧
    (s.currentInstr = some .halt → t.status = .halted (s.reg .acc)) ∧
    (t.status ≠ .running ↔ step t = .fault .runEnded)

/-! ### Arithmetic, logic and moves -/

/-- 42_arithmetic_logic.md R121, R122, R123, R128: MOV, ADD, SUB and OR complete on every operand; the destination gets the result
and nothing else but pc changes. -/
def Obligations.MoveAddSubOrResults : Prop :=
  ∀ (rb : Reg) (src : Src) (s : State),
    (∃ t, exec (.mov rb src) s = .next t ∧ s.WritesOnly t rb (s.srcVal src)) ∧
    (∃ t, exec (.add rb src) s = .next t ∧
      s.WritesOnly t rb (wrap32 ((s.reg rb).toNat + (s.srcVal src).toNat))) ∧
    (∃ t, exec (.sub rb src) s = .next t ∧
      s.WritesOnly t rb (wrap32 ((s.reg rb).toNat - (s.srcVal src).toNat))) ∧
    (∃ t r, exec (.or rb src) s = .next t ∧ s.WritesOnly t rb r ∧
      ∀ k, r.getLsbD k = ((s.reg rb).getLsbD k || (s.srcVal src).getLsbD k))

/-- 42_arithmetic_logic.md R124, R127 (instructions added by the spec's decision D2, log entry 13): MUL and AND complete on every
operand. -/
def Obligations.MulAndResults : Prop :=
  ∀ (rb : Reg) (src : Src) (s : State),
    (∃ t, exec (.mul rb src) s = .next t ∧
      s.WritesOnly t rb (wrap32 ((s.reg rb).toNat * (s.srcVal src).toNat))) ∧
    (∃ t r, exec (.and rb src) s = .next t ∧ s.WritesOnly t rb r ∧
      ∀ k, r.getLsbD k = ((s.reg rb).getLsbD k && (s.srcVal src).getLsbD k))

/-- 42_arithmetic_logic.md R129, R130: the shifts complete on every operand, under either `SHIFT_LAW`; under the spec's (count
modulo 32 and zero fill, its decision D13, log entry 18) the results are these, and so they are under any law (log entry 31)
where the count is 0 to 31, but for the bits that SHR fills in. -/
def Obligations.ShiftResults : Prop :=
  ∀ (rb : Reg) (src : Src) (s : State),
    let a := s.reg rb
    let n := (s.srcVal src).toNat
    (∃ t r, exec (.shl rb src) s = .next t ∧ s.WritesOnly t rb r ∧
      (s.cfg.shiftLaw = .modulo32 ∨ n < 32 → r = wrap32 (a.toNat * 2 ^ (n % 32)))) ∧
    (∃ t r, exec (.shr rb src) s = .next t ∧ s.WritesOnly t rb r ∧
      (s.cfg.shiftLaw = .modulo32 → r = wrap32 (a.toNat / 2 ^ (n % 32))) ∧
      (n < 32 → ∀ k, k + n < 32 → r.getLsbD k = a.getLsbD (k + n)))

/-- 42_arithmetic_logic.md R131 (the spec's decision D9, log entry 16): CMP leaves -1, 0 or 1 in its destination. -/
def Obligations.CompareResult : Prop :=
  ∀ (rb : Reg) (src : Src) (s : State),
    ∃ t r, exec (.cmp rb src) s = .next t ∧ s.WritesOnly t rb r ∧
      ((s.reg rb).toInt < (s.srcVal src).toInt → r = wrap32 (-1)) ∧
      ((s.reg rb).toInt = (s.srcVal src).toInt → r = 0#32) ∧
      ((s.srcVal src).toInt < (s.reg rb).toInt → r = 1#32)

/-- 42_arithmetic_logic.md R125, R126: DIV and MOD complete where the divisor is not 0, under either `DIV_LAW`; under the spec's
(truncation and the overflowing case, its decision D12, log entry 17) the results are these, and so they are under any law (log
entry 31) where neither operand is negative. -/
def Obligations.DivModResults : Prop :=
  ∀ (rb : Reg) (src : Src) (s : State), s.srcVal src ≠ 0#32 →
    let a := (s.reg rb).toInt
    let b := (s.srcVal src).toInt
    (∃ t r, exec (.div rb src) s = .next t ∧ s.WritesOnly t rb r ∧
      (s.cfg.divLaw = .truncate ∨ (0 ≤ a ∧ 0 ≤ b) → r = wrap32 (a.tdiv b))) ∧
    (∃ t r, exec (.mod rb src) s = .next t ∧ s.WritesOnly t rb r ∧
      (s.cfg.divLaw = .truncate ∨ (0 ≤ a ∧ 0 ≤ b) → r = wrap32 (a - b * a.tdiv b)))

/-- 60_exceptions.md R173: DIV and MOD by zero, from a register or an immediate, take `DivisionByZero` with the destination
unwritten and pc at the instruction; no other arithmetic condition faults. -/
def Obligations.DivisionByZeroFaults : Prop :=
  ∀ (rb : Reg) (src : Src) (s : State),
    (s.srcVal src = 0#32 → ∀ i ∈ [Instr.div rb src, Instr.mod rb src],
      ∃ t, exec i s = .next t ∧ s.TakesFault t .divisionByZero) ∧
    (s.srcVal src ≠ 0#32 → ∀ i ∈ [Instr.div rb src, Instr.mod rb src], ∃ t, exec i s = .next t ∧ t.status = s.status) ∧
    ∀ i ∈ [Instr.mov rb src, .add rb src, .sub rb src, .mul rb src, .and rb src, .or rb src, .shl rb src, .shr rb src,
      .cmp rb src], ∃ t, exec i s = .next t ∧ t.status = s.status

/-- 42_arithmetic_logic.md R134: the quotient times the divisor plus the remainder is the dividend modulo 2^32, the remainder is
smaller than the divisor and is zero or has the dividend's sign; for every pair of operands with a divisor that is not 0 under
the spec's `DIV_LAW` (its decision D12, log entry 17), and under any law for operands that are not negative. -/
def Obligations.DivModIdentities : Prop :=
  ∀ (rb : Reg) (src : Src) (s : State), s.srcVal src ≠ 0#32 →
    s.cfg.divLaw = .truncate ∨ (0 ≤ (s.reg rb).toInt ∧ 0 ≤ (s.srcVal src).toInt) →
    ∃ t u, exec (.div rb src) s = .next t ∧ exec (.mod rb src) s = .next u ∧
      t.reg rb * s.srcVal src + u.reg rb = s.reg rb ∧
      |(u.reg rb).toInt| < |(s.srcVal src).toInt| ∧
      (u.reg rb = 0#32 ∨ ((u.reg rb).toInt < 0 ↔ (s.reg rb).toInt < 0))

/-- 42_arithmetic_logic.md R132, R133 (implicit x[2]: the spec's decision D7; LAD.m: D11; log entries 16 and 27): the address loads
complete on every operand, and LAD.m copies any register to any register. -/
def Obligations.LoadAddressResults : Prop :=
  ∀ (rd base : Reg) (offset target : Word) (s : State),
    (∃ t, exec (.ladA target) s = .next t ∧ s.WritesOnly t .acc target) ∧
    (∃ t, exec (.ladM rd base offset) s = .next t ∧
      s.WritesOnly t rd (wrap32 ((s.reg base).toInt + offset.toInt))) ∧
    (∃ t, exec (.ladM rd base 0#32) s = .next t ∧ s.WritesOnly t rd (s.reg base))

/-- 42_arithmetic_logic.md R132, R128, R129 and 95_test_vectors.md S8 (with the spec's decision D7): `LAD @(c >> 8)`,
`SHL A, #8`, `OR A, #(c and 0xFF)` are legal instructions that leave any 32-bit constant c in the accumulator. -/
def Obligations.ThreeInstructionsMakeAnyConstant : Prop :=
  ∀ (s : State) (c : Word), s.status = .running →
    let program : List Instr := [.ladA (c >>> 8), .shl .acc (.imm 8#32), .or .acc (.imm (c &&& 0xFF#32))]
    (∀ ra, ∀ i ∈ program, i.wf ra = true) ∧
    ∃ t, execAll program s = some t ∧ t.reg .acc = c ∧ t.pc = s.pc + 3#32 ∧ t.mem = s.mem

/-! ### Stack -/

/-- 43_stack.md R141: PUSH writes the operand, read before anything changes, at x[0] and then decrements x[0]; where x[0] is out
of range it faults there with x[0] unchanged. -/
def Obligations.PushResult : Prop :=
  ∀ (src : Src) (s : State),
    (s.inRange (s.reg .sp) = true → ∃ t, exec (.push src) s = .next t ∧
      s.StoresOnly t (s.reg .sp).toNat (s.srcVal src) ∧ t.reg .sp = s.reg .sp - 1#32 ∧
      (∀ q, q ≠ .sp → t.reg q = s.reg q) ∧ t.pc = s.pc + 1#32 ∧ s.SameRest t) ∧
    (s.inRange (s.reg .sp) = false → ∃ t, exec (.push src) s = .next t ∧ s.TakesMemFault t (s.reg .sp))

/-- 43_stack.md R142 (the order and `POP SP`: the spec's decision D15, log entry 19): POP reads above x[0], moves x[0] up, then
writes the destination, so that `POP SP` ends with the popped value; where that address is out of range nothing changes. -/
def Obligations.PopResult : Prop :=
  ∀ (rb : Reg) (s : State),
    (s.inRange (s.reg .sp + 1#32) = true → ∃ t, exec (.pop rb) s = .next t ∧
      t.reg rb = s.readWord (s.reg .sp + 1#32).toNat ∧
      (rb ≠ .sp → t.reg .sp = s.reg .sp + 1#32) ∧
      (∀ q, q ≠ .sp → q ≠ rb → t.reg q = s.reg q) ∧ t.pc = s.pc + 1#32 ∧ t.mem = s.mem ∧ s.SameRest t) ∧
    (s.inRange (s.reg .sp + 1#32) = false →
      ∃ t, exec (.pop rb) s = .next t ∧ s.TakesMemFault t (s.reg .sp + 1#32))

/-- 43_stack.md R142 ("POP undoes PUSH"; with the spec's decision D15): a PUSH followed by a POP moves the operand into the
destination and, where the destination is another register, leaves x[0] as before. -/
def Obligations.PopUndoesPush : Prop :=
  ∀ (src : Src) (rb : Reg) (s : State), s.status = .running → s.inRange (s.reg .sp) = true →
    ∃ t, execAll [.push src, .pop rb] s = some t ∧ t.reg rb = s.srcVal src ∧
      ∀ q, q ≠ rb → t.reg q = s.reg q

/-! ### Memory load and store -/

/-- 44_load_store.md R151, R150: MOV.ld loads the word at x[base] + offset modulo 2^32, read with the old base; where that
address is out of range it faults with trap at exactly that address and the register unchanged. -/
def Obligations.LoadRegisterResult : Prop :=
  ∀ (rd base : Reg) (offset : Word) (s : State),
    let ea := wrap32 ((s.reg base).toInt + offset.toInt)
    (ea.toNat < s.cfg.memSize → ∃ t, exec (.movLd rd base offset) s = .next t ∧
      s.WritesOnly t rd (s.readWord ea.toNat)) ∧
    (s.cfg.memSize ≤ ea.toNat → ∃ t, exec (.movLd rd base offset) s = .next t ∧ s.TakesMemFault t ea)

/-- 44_load_store.md R152 (the field in bits 23-22 as data source is the spec's inference from 30_encoding.md R55): MOV.st stores
x[rd] at x[base] + offset and changes no register; where that address is out of range memory is unchanged. -/
def Obligations.StoreRegisterResult : Prop :=
  ∀ (rd base : Reg) (offset : Word) (s : State),
    (s.inRange (s.effAddr base offset) = true → ∃ t, exec (.movSt rd base offset) s = .next t ∧
      s.StoresOnly t (s.effAddr base offset).toNat (s.reg rd) ∧
      (∀ q, t.reg q = s.reg q) ∧ t.pc = s.pc + 1#32 ∧ s.SameRest t) ∧
    (s.inRange (s.effAddr base offset) = false →
      ∃ t, exec (.movSt rd base offset) s = .next t ∧ s.TakesMemFault t (s.effAddr base offset))

/-- 44_load_store.md R153, R154 (implicit x[2] and two selectors: the spec's decisions D6 and D7, log entry 16): the absolute
load and store. -/
def Obligations.AbsoluteLoadStoreResults : Prop :=
  ∀ (target : Word) (s : State),
    (s.inRange target = true →
      (∃ t, exec (.movLda target) s = .next t ∧ s.WritesOnly t .acc (s.readWord target.toNat)) ∧
      (∃ t, exec (.movSta target) s = .next t ∧ s.StoresOnly t target.toNat (s.reg .acc) ∧
        (∀ q, t.reg q = s.reg q) ∧ t.pc = s.pc + 1#32 ∧ s.SameRest t)) ∧
    (s.inRange target = false → ∀ i ∈ [Instr.movLda target, Instr.movSta target],
      ∃ t, exec i s = .next t ∧ s.TakesMemFault t target)

/-! ### Control transfer -/

/-- 41_control_transfer.md R100: JMP.a sets pc and nothing else and does not fault; a target that is not below MEMSIZE faults at
the next fetch with trap and pc at the target; a jump to its own address changes nothing. -/
def Obligations.JumpAbsoluteResult : Prop :=
  ∀ (target : Word) (s : State),
    ∃ t, exec (.jmpA target) s = .next t ∧ s.TransfersOnly t target ∧ (target = s.pc → t = s) ∧
      (s.status = .running → s.cfg.memSize ≤ target.toNat → ∃ u, step t = .next u ∧ t.TakesMemFault u target)

/-- 41_control_transfer.md R101 (the spec's decision D10, log entry 27): JMP.r sets pc to its operand and does not fault. -/
def Obligations.JumpRegisterResult : Prop :=
  ∀ (src : Src) (s : State), ∃ t, exec (.jmpR src) s = .next t ∧ s.TransfersOnly t (s.srcVal src)

/-- 41_control_transfer.md R100 ("a one-instruction infinite loop"), 40_fetch_decode_execute.md R87: a running machine at a jump to
its own address stays as it is for ever, and that run is safe. -/
def Obligations.JumpToItselfLoopsSafely : Prop :=
  ∀ s : State, s.status = .running → s.currentInstr = some (.jmpA s.pc) → step s = .next s ∧ s.SafeRun

/-- 41_control_transfer.md R102: CALL.a stores the frame pointer at x[0] and the return address below it, makes the slot of the
return address the frame pointer, and transfers; where a write is out of range it faults there, and a fault on the second
write leaves the first done. -/
def Obligations.CallAbsoluteResult : Prop :=
  ∀ (target : Word) (s : State),
    (s.inRange (s.reg .sp) = true → s.inRange (s.reg .sp - 1#32) = true →
      ∃ t, exec (.callA target) s = .next t ∧
        s.StoresTwo t (s.reg .sp).toNat (s.reg .fp) (s.reg .sp - 1#32).toNat (s.pc + 1#32) ∧
        t.reg .fp = s.reg .sp - 1#32 ∧ t.reg .sp = s.reg .sp - 2#32 ∧ t.reg .acc = s.reg .acc ∧ t.reg .sec = s.reg .sec ∧
        t.pc = target ∧ s.SameRest t) ∧
    (s.inRange (s.reg .sp) = false → ∃ t, exec (.callA target) s = .next t ∧ s.TakesMemFault t (s.reg .sp)) ∧
    (s.inRange (s.reg .sp) = true → s.inRange (s.reg .sp - 1#32) = false →
      ∃ t, exec (.callA target) s = .next t ∧ s.EndsInMemFault t (s.reg .sp - 1#32) ∧
        s.StoresOnly t (s.reg .sp).toNat (s.reg .fp) ∧
        t.reg .sp = s.reg .sp - 1#32 ∧ t.reg .fp = s.reg .sp - 1#32 ∧ t.reg .acc = s.reg .acc ∧ t.reg .sec = s.reg .sec)

/-- 41_control_transfer.md R103 (the spec's decision D10, log entry 27): CALL.r is CALL.a but for the target, which is read before
anything is written. -/
def Obligations.CallRegisterResult : Prop :=
  ∀ (src : Src) (s : State),
    (∃ t, exec (.callR src) s = .next t ∧ exec (.callA (s.srcVal src)) s = .next t) ∧
    (s.inRange (s.reg .sp) = true → s.inRange (s.reg .sp - 1#32) = true →
      ∃ t, exec (.callR src) s = .next t ∧
        s.StoresTwo t (s.reg .sp).toNat (s.reg .fp) (s.reg .sp - 1#32).toNat (s.pc + 1#32) ∧
        t.reg .fp = s.reg .sp - 1#32 ∧ t.reg .sp = s.reg .sp - 2#32 ∧ t.reg .acc = s.reg .acc ∧ t.reg .sec = s.reg .sec ∧
        t.pc = s.srcVal src ∧ s.SameRest t)

/-- 41_control_transfer.md R104: RET takes the return address from the frame-pointer slot, sets x[0] to the address above it and
reads the saved frame pointer there without moving x[0] again (the choice of 90_conflicts.md C4, log entry 30); where a read
is out of range it faults there, and a fault on the second read leaves x[0] changed. -/
def Obligations.ReturnResult : Prop :=
  ∀ s : State,
    (s.inRange (s.reg .fp) = true → s.inRange (s.reg .fp + 1#32) = true →
      ∃ t, exec .ret s = .next t ∧ t.pc = s.readWord (s.reg .fp).toNat ∧ t.reg .sp = s.reg .fp + 1#32 ∧
        t.reg .fp = s.readWord (s.reg .fp + 1#32).toNat ∧ t.reg .acc = s.reg .acc ∧ t.reg .sec = s.reg .sec ∧
        t.mem = s.mem ∧ s.SameRest t) ∧
    (s.inRange (s.reg .fp) = false → ∃ t, exec .ret s = .next t ∧ s.TakesMemFault t (s.reg .fp)) ∧
    (s.inRange (s.reg .fp) = true → s.inRange (s.reg .fp + 1#32) = false →
      ∃ t, exec .ret s = .next t ∧ s.EndsInMemFault t (s.reg .fp + 1#32) ∧ t.reg .sp = s.reg .fp + 1#32 ∧
        (∀ q, q ≠ .sp → t.reg q = s.reg q) ∧ t.mem = s.mem)

/-- 41_control_transfer.md R114 (the spec's derivation from R102 and R104): after a CALL with stack pointer s and any state in
which x[1] is s - 1 again and the two words of the record are as CALL left them, RET restores x[0], x[1] and goes on after
the CALL. -/
def Obligations.CallReturnBalance : Prop :=
  ∀ (i : Instr) (s t u : State), (∃ target, i = .callA target) ∨ (∃ src, i = .callR src) →
    s.status = .running → exec i s = .next t → t.status = .running →
    u.cfg = s.cfg → u.reg .fp = s.reg .sp - 1#32 →
    u.readWord (s.reg .sp).toNat = t.readWord (s.reg .sp).toNat →
    u.readWord (s.reg .sp - 1#32).toNat = t.readWord (s.reg .sp - 1#32).toNat →
    ∃ v, exec .ret u = .next v ∧ v.reg .sp = s.reg .sp ∧ v.reg .fp = s.reg .fp ∧ v.pc = s.pc + 1#32 ∧ v.mem = u.mem

/-- 41_control_transfer.md R114 (the spec's derivation; the source's balance property of section 8): for any N nested CALLs, of
either form and with any targets, followed by N RETs, the stack pointer and the frame pointer are as before, execution goes on
after the first CALL, and no byte of memory outside the 2N words below and at the initial stack pointer has changed. The
hypothesis is that these words exist. -/
def Obligations.NestedCallsBalance : Prop :=
  ∀ (calls : List Instr) (s : State), s.status = .running →
    (∀ i ∈ calls, (∃ target, i = .callA target) ∨ ∃ src, i = .callR src) →
    (s.reg .sp).toNat < s.cfg.memSize → 2 * calls.length ≤ (s.reg .sp).toNat + 1 → calls ≠ [] →
    ∃ t, execAll (calls ++ List.replicate calls.length .ret) s = some t ∧
      t.reg .sp = s.reg .sp ∧ t.reg .fp = s.reg .fp ∧ t.pc = s.pc + 1#32 ∧
      t.reg .acc = s.reg .acc ∧ t.reg .sec = s.reg .sec ∧ s.SameRest t ∧
      ∀ k, (k < 4 * ((s.reg .sp).toNat + 1 - 2 * calls.length) ∨ 4 * ((s.reg .sp).toNat + 1) ≤ k) →
        t.readByte k = s.readByte k

/-- 41_control_transfer.md R105 (the spec's derivation from R102 and 43_stack.md R141), 45_system.md R162: after the caller pushed
an argument and the argument count and called, the record lies around the frame pointer p as the table says: return address
at p, saved frame pointer at p + 1, count at p + 2, first argument at p + 3. -/
def Obligations.ActivationRecordLayout : Prop :=
  ∀ (arg : Src) (count target : Word) (s : State), s.status = .running →
    3 ≤ (s.reg .sp).toNat → (s.reg .sp).toNat < s.cfg.memSize →
    ∃ t, execAll [.push arg, .push (.imm count), .callA target] s = some t ∧ t.pc = target ∧
      t.reg .fp = s.reg .sp - 3#32 ∧ t.reg .sp = s.reg .sp - 4#32 ∧
      t.readWord (t.reg .fp).toNat = s.pc + 3#32 ∧
      t.readWord ((t.reg .fp).toNat + 1) = s.reg .fp ∧
      t.readWord (t.argAddr 0#32).toNat = count ∧
      t.readWord (t.argAddr 1#32).toNat = s.srcVal arg

/-- 41_control_transfer.md R107 to R113 (what a branch tests: the spec's decision D8, log entry 16): the six branches complete on
every operand, test x[2] as a signed number against zero, and change only pc. -/
def Obligations.BranchResults : Prop :=
  ∀ (offset : Word) (s : State),
    let next := s.pc + 1#32
    let taken := wrap32 (next.toInt + offset.toInt)
    let a := s.reg .acc
    (∃ t, exec (.beq offset) s = .next t ∧ s.TransfersOnly t (if a = 0#32 then taken else next)) ∧
    (∃ t, exec (.bne offset) s = .next t ∧ s.TransfersOnly t (if a = 0#32 then next else taken)) ∧
    (∃ t, exec (.blt offset) s = .next t ∧ s.TransfersOnly t (if a.msb = true then taken else next)) ∧
    (∃ t, exec (.ble offset) s = .next t ∧ s.TransfersOnly t (if a = 0#32 ∨ a.msb = true then taken else next)) ∧
    (∃ t, exec (.bgt offset) s = .next t ∧ s.TransfersOnly t (if a ≠ 0#32 ∧ a.msb = false then taken else next)) ∧
    (∃ t, exec (.bge offset) s = .next t ∧ s.TransfersOnly t (if a.msb = false then taken else next))

/-- 41_control_transfer.md R107 (with the spec's decisions D8 and D9, log entry 16): after `CMP A, v` the six branches test the
signed relation of the old x[2] and v. -/
def Obligations.BranchesAfterCompareTestTheRelation : Prop :=
  ∀ (src : Src) (offset : Word) (s : State), s.status = .running →
    let a := (s.reg .acc).toInt
    let v := (s.srcVal src).toInt
    let next := s.pc + 2#32
    let pcOf := fun i => (execAll [.cmp .acc src, i] s).map State.pc
    pcOf (.beq offset) = some (if a = v then next + offset else next) ∧
    pcOf (.bne offset) = some (if a ≠ v then next + offset else next) ∧
    pcOf (.blt offset) = some (if a < v then next + offset else next) ∧
    pcOf (.ble offset) = some (if a ≤ v then next + offset else next) ∧
    pcOf (.bgt offset) = some (if v < a then next + offset else next) ∧
    pcOf (.bge offset) = some (if v ≤ a then next + offset else next)

/-! ### System -/

/-- 45_system.md R160, R161, R165 (SYS and what the RTS may touch: the spec's decisions D16 and D17, log entries 10, 12 and 27): an
implemented call whose accesses are all in memory and which returns v completes: x[2] is v, memory has the RTS's writes, and
no other register changes. That one performance is taken from the model's own inputs `rtsScript` and `rtsCalls` is the model's
choice (log entry 9). -/
def Obligations.SystemCallReturns : Prop :=
  ∀ (src : Src) (s : State) (accesses : List RtsAccess) (v : Word),
    s.selectorClass (s.srcVal src) = .implemented → s.rtsPerformance (s.srcVal src) = ⟨accesses, .ret v⟩ →
    s.allInRange accesses →
    ∃ t, exec (.sys src) s = .next t ∧ t.reg .acc = v ∧ (∀ q, q ≠ .acc → t.reg q = s.reg q) ∧ t.pc = s.pc + 1#32 ∧
      t.status = s.status ∧ t.trap = s.trap ∧ t.cfg = s.cfg ∧
      t.rtsScript = s.rtsScript.tail ∧ t.rtsCalls = s.rtsCalls + 1 ∧
      (∀ b, t.readWord b = wordAfter accesses b (s.readWord b)) ∧
      ∀ k, (∀ a ∈ writtenAddrs accesses, k < 4 * a.toNat ∨ 4 * a.toNat + 4 ≤ k) → t.readByte k = s.readByte k

/-- 45_system.md R160, R161 (an exiting call: the spec's decision D31; pc after it: D35; log entry 20): an implemented call that
ends the process sets the status to `Exited(v)`, with pc after the instruction and every register unchanged. That the RTS's writes
stay in memory, which the response does not name, is the model's inference (log entry 10). -/
def Obligations.SystemCallExits : Prop :=
  ∀ (src : Src) (s : State) (accesses : List RtsAccess) (v : Word),
    s.selectorClass (s.srcVal src) = .implemented → s.rtsPerformance (s.srcVal src) = ⟨accesses, .exit v⟩ →
    s.allInRange accesses →
    ∃ t, exec (.sys src) s = .next t ∧ t.status = .exited v ∧ (∀ q, t.reg q = s.reg q) ∧ t.pc = s.pc + 1#32 ∧
      t.trap = s.trap ∧ t.cfg = s.cfg ∧ ∀ b, t.readWord b = wordAfter accesses b (s.readWord b)

/-- 20_memory.md R42, 45_system.md R160, 60_exceptions.md R191 (the spec's decisions D17 and D20, log entries 10 and 21): the first
access of the RTS outside memory ends the run with an illegal memory access at that address; registers are unchanged and
what the RTS wrote before stays. -/
def Obligations.SystemCallMemoryFault : Prop :=
  ∀ (src : Src) (s : State) (before after : List RtsAccess) (x : RtsAccess) (ending : RtsEnding),
    s.selectorClass (s.srcVal src) = .implemented →
    s.rtsPerformance (s.srcVal src) = ⟨before ++ x :: after, ending⟩ →
    s.allInRange before → s.inRange (accessAddr x) = false →
    ∃ t, exec (.sys src) s = .next t ∧ s.EndsInMemFault t (accessAddr x) ∧ (∀ q, t.reg q = s.reg q) ∧
      ∀ b, t.readWord b = wordAfter before b (s.readWord b)

/-- 60_exceptions.md R174, R175: a selector that is not recognised, or recognised and not implemented, ends the run with the fault
of its kind, and nothing but status and pc changes. -/
def Obligations.RejectedSystemCallsFault : Prop :=
  ∀ (src : Src) (s : State),
    (s.selectorClass (s.srcVal src) = .undefined →
      ∃ t, exec (.sys src) s = .next t ∧ s.TakesFault t .undefinedSystemCall) ∧
    (s.selectorClass (s.srcVal src) = .unsupported →
      ∃ t, exec (.sys src) s = .next t ∧ s.TakesFault t .unsupportedSystemCall)

/-- 45_system.md R160, R166 (U4 of 93_implementation_defined.md; that the model names it a fault is its own choice, log entry 11): a
call that is never answered, its accesses being in memory, has no next state. -/
def Obligations.UnansweredSystemCallIsStuck : Prop :=
  ∀ (src : Src) (s : State) (accesses : List RtsAccess),
    s.selectorClass (s.srcVal src) = .implemented → s.rtsPerformance (s.srcVal src) = ⟨accesses, .never⟩ →
    s.allInRange accesses → exec (.sys src) s = .fault .systemCallNeverAnswers

/-- 45_system.md R164 (the full 32-bit exit status: the spec's decision D27; pc after it: D35; log entries 20 and 25): HALT ends
the run with the accumulator as exit status; no register, no memory word and not trap changes, pc is after the instruction, and the
next step does nothing. -/
def Obligations.HaltResult : Prop :=
  ∀ s : State, ∃ t, exec .halt s = .next t ∧ t.status = .halted (s.reg .acc) ∧ (∀ q, t.reg q = s.reg q) ∧
    t.mem = s.mem ∧ t.pc = s.pc + 1#32 ∧ t.trap = s.trap ∧ t.cfg = s.cfg ∧ t.rtsScript = s.rtsScript ∧
    t.rtsCalls = s.rtsCalls ∧ step t = .fault .runEnded
end

