-- ==== Sys2Proof/Laws/Encoding.lean ====
section
/-! SUPPORT. What the decoder's fields read from the words the encoder builds, and that the extensions undo the cut of a value that
fits. -/

namespace Sys2Proof

/-! ### Extensions -/

theorem toInt_sext20 (v : BitVec 20) : (sext20 v).toInt = v.toInt := BitVec.toInt_signExtend_of_le (by omega)

theorem toInt_sext24 (v : BitVec 24) : (sext24 v).toInt = v.toInt := BitVec.toInt_signExtend_of_le (by omega)

theorem sext20_setWidth {v : Word} (h : fits20 v = true) : sext20 (v.setWidth 20) = v := by
  simp only [fits20, Bool.and_eq_true, decide_eq_true_eq] at h
  apply BitVec.eq_of_toInt_eq
  rw [toInt_sext20, BitVec.toInt_setWidth]
  have hv := v.isLt
  have hcond := BitVec.toInt_eq_toNat_cond v
  rw [Int.bmod]
  split at hcond <;> split <;> omega

theorem sext24_setWidth {v : Word} (h : fits24 v = true) : sext24 (v.setWidth 24) = v := by
  simp only [fits24, Bool.and_eq_true, decide_eq_true_eq] at h
  apply BitVec.eq_of_toInt_eq
  rw [toInt_sext24, BitVec.toInt_setWidth]
  have hv := v.isLt
  have hcond := BitVec.toInt_eq_toNat_cond v
  rw [Int.bmod]
  split at hcond <;> split <;> omega

theorem zext28_setWidth {v : Word} (h : fits28 v = true) : zext28 (v.setWidth 28) = v := by
  simp only [fits28, decide_eq_true_eq] at h
  apply BitVec.eq_of_toNat_eq
  simp only [zext28, BitVec.toNat_setWidth]
  omega

@[simp] theorem ofField_toField (r : Reg) : Reg.ofField r.toField = r := by cases r <;> rfl

@[simp] theorem toField_ofField (v : BitVec 2) : (Reg.ofField v).toField = v := by
  revert v
  decide

/-! ### Fields of an R-format word -/

section

variable (opb : BitVec 8) (rb : BitVec 2) (low : BitVec 22)

theorem msb_rWord : (rWord opb rb low).msb = opb.msb := by
  rw [BitVec.msb_eq_getLsbD_last, BitVec.msb_eq_getLsbD_last]
  simp [rWord]

@[simp] theorem opbField_rWord : opbField (rWord opb rb low) = opb := by
  apply BitVec.eq_of_getLsbD_eq
  intro i hi
  simp [opbField, rWord, hi, show 24 + i < 32 by omega, show ¬ (24 + i < 24) by omega,
    show ¬ (24 + i < 22) by omega, show 24 + i - 22 = i + 2 by omega,
    BitVec.getLsbD_of_ge low (24 + i) (by omega)]

@[simp] theorem rbField_rWord : rbField (rWord opb rb low) = rb := by
  apply BitVec.eq_of_getLsbD_eq
  intro i hi
  simp [rbField, rWord, hi, show 22 + i < 32 by omega, show 22 + i < 24 by omega]

theorem extract_rWord {n k : Nat} (h : n + k ≤ 22) : (rWord opb rb low).extractLsb' n k = low.extractLsb' n k := by
  apply BitVec.eq_of_getLsbD_eq
  intro i hi
  simp [rWord, hi, show n + i < 32 by omega, show n + i < 24 by omega, show n + i < 22 by omega]

end

theorem flagBits_imm (ra : RaDecode) (v : Word) : (srcBits ra (.imm v)).extractLsb' 20 2 = 3#2 := by
  apply BitVec.eq_of_getLsbD_eq
  intro i hi
  simp [srcBits, hi, show 20 + i < 22 by omega]
  interval_cases i <;> rfl

theorem litBits_imm (ra : RaDecode) (v : Word) : (srcBits ra (.imm v)).extractLsb' 0 20 = v.setWidth 20 := by
  apply BitVec.eq_of_getLsbD_eq
  intro i hi
  have hbit : (3#22 <<< 20).getLsbD i = false := by interval_cases i <;> rfl
  simp only [srcBits, BitVec.getLsbD_extractLsb', BitVec.getLsbD_or, BitVec.getLsbD_setWidth, Nat.zero_add, hbit]
  simp [hi, show i < 22 by omega]

/-- The source operand is read back, under either reading. -/
theorem srcOf_rWord (ra : RaDecode) (opb : BitVec 8) (rb : BitVec 2) {src : Src} (h : src.wf ra = true) :
    srcOf ra (rWord opb rb (srcBits ra src)) = src := by
  have hflag : raField (rWord opb rb (srcBits ra src)) = (srcBits ra src).extractLsb' 20 2 := extract_rWord _ _ _ (by omega)
  have hlow : lowRaField (rWord opb rb (srcBits ra src)) = (srcBits ra src).extractLsb' 18 2 := extract_rWord _ _ _ (by omega)
  have hlit : litField (rWord opb rb (srcBits ra src)) = (srcBits ra src).extractLsb' 0 20 := extract_rWord _ _ _ (by omega)
  cases src with
  | imm v => rw [srcOf, hflag, flagBits_imm, if_pos rfl, hlit, litBits_imm, sext20_setWidth h]
  | reg r =>
    cases ra with
    | flagField =>
      have hr : (srcBits .flagField (.reg r)).extractLsb' 20 2 = r.toField := by cases r <;> decide
      rw [srcOf, sourceField, hflag, hr, if_neg (by cases r <;> simp_all [Reg.toField, Src.wf]), ofField_toField]
    | belowFlag =>
      have hf : (srcBits .belowFlag (.reg r)).extractLsb' 20 2 = 0#2 := by cases r <;> decide
      have hr : (srcBits .belowFlag (.reg r)).extractLsb' 18 2 = r.toField := by cases r <;> decide
      rw [srcOf, sourceField, hflag, hf, if_neg (by decide), hlow, hr, ofField_toField]

/-! ### Fields of M-, A- and B-format words -/

section

variable (opb : BitVec 8) (rd base : Reg) (offset : Word)

theorem mWord_eq_rWord :
    mWord opb rd base offset =
      rWord opb rd.toField ((base.toField.setWidth 22 <<< 20) ||| (offset.setWidth 20).setWidth 22) := by
  apply BitVec.eq_of_getLsbD_eq
  intro i hi
  simp only [mWord, rWord, BitVec.getLsbD_or, BitVec.getLsbD_setWidth, BitVec.getLsbD_shiftLeft]
  by_cases h : i < 22
  · simp only [h, hi, decide_true, Bool.true_and, show i - 20 < 22 by omega, show i - 20 < 32 by omega,
      show i < 24 by omega, Bool.not_true, Bool.false_and, Bool.false_or]
  · have h₂ : base.toField.getLsbD (i - 20) = false := BitVec.getLsbD_of_ge _ _ (by omega)
    simp [h, hi, h₂, show ¬ i < 20 by omega]

@[simp] theorem raField_mWord : raField (mWord opb rd base offset) = base.toField := by
  rw [mWord_eq_rWord, raField, extract_rWord _ _ _ (by omega)]
  apply BitVec.eq_of_getLsbD_eq
  intro i hi
  simp [hi, show 20 + i < 22 by omega]

@[simp] theorem litField_mWord : litField (mWord opb rd base offset) = offset.setWidth 20 := by
  rw [mWord_eq_rWord, litField, extract_rWord _ _ _ (by omega)]
  apply BitVec.eq_of_getLsbD_eq
  intro i hi
  simp [hi, show i < 22 by omega]

end

section

variable (sel : BitVec 3) (target : Word)

@[simp] theorem msb_aWord : (aWord sel target).msb = true := by
  rw [BitVec.msb_eq_getLsbD_last]
  simp [aWord]

@[simp] theorem selField_aWord : selField (aWord sel target) = sel := by
  apply BitVec.eq_of_getLsbD_eq
  intro i hi
  have hbit : (1#32 <<< 31).getLsbD (28 + i) = false := by interval_cases i <;> rfl
  simp only [selField, aWord, BitVec.getLsbD_extractLsb', BitVec.getLsbD_or, hbit]
  simp [hi, show 28 + i < 32 by omega]

@[simp] theorem addrField_aWord : addrField (aWord sel target) = target.setWidth 28 := by
  apply BitVec.eq_of_getLsbD_eq
  intro i hi
  have hbit : (1#32 <<< 31).getLsbD i = false := by interval_cases i <;> rfl
  simp only [addrField, aWord, BitVec.getLsbD_extractLsb', BitVec.getLsbD_or, Nat.zero_add, hbit]
  simp [hi, show i < 32 by omega]

end

section

variable (cond : BitVec 4) (offset : Word)

@[simp] theorem msb_bWord : (bWord cond offset).msb = true := by
  rw [BitVec.msb_eq_getLsbD_last]
  simp [bWord]

@[simp] theorem selField_bWord : selField (bWord cond offset) = 7#3 := by
  apply BitVec.eq_of_getLsbD_eq
  intro i hi
  have hbit : (0xF#32 <<< 28).getLsbD (28 + i) = true := by interval_cases i <;> rfl
  have hseven : (7#3).getLsbD i = true := by interval_cases i <;> rfl
  simp only [selField, bWord, BitVec.getLsbD_extractLsb', BitVec.getLsbD_or, hbit, hseven]
  simp [hi]

@[simp] theorem condField_bWord : condField (bWord cond offset) = cond := by
  apply BitVec.eq_of_getLsbD_eq
  intro i hi
  have hbit : (0xF#32 <<< 28).getLsbD (24 + i) = false := by interval_cases i <;> rfl
  simp only [condField, bWord, BitVec.getLsbD_extractLsb', BitVec.getLsbD_or, hbit]
  simp [hi, show 24 + i < 32 by omega]

@[simp] theorem dispField_bWord : dispField (bWord cond offset) = offset.setWidth 24 := by
  apply BitVec.eq_of_getLsbD_eq
  intro i hi
  have hbit : (0xF#32 <<< 28).getLsbD i = false := by interval_cases i <;> rfl
  simp only [dispField, bWord, BitVec.getLsbD_extractLsb', BitVec.getLsbD_or, Nat.zero_add, hbit]
  simp [hi, show i < 32 by omega]

end

/-! ### The opcode tables -/

/-- In a list of pairs whose first components are all different, a listed key finds its value. -/
theorem lookup_of_mem {α β : Type} [DecidableEq α] {l : List (α × β)} {a : α} {b : β} (hn : (l.map Prod.fst).Nodup)
    (h : (a, b) ∈ l) : l.lookup a = some b := by
  induction l with
  | nil => cases h
  | cons c l ih =>
    rw [List.map_cons, List.nodup_cons] at hn
    rw [List.lookup_cons]
    rcases List.mem_cons.1 h with rfl | h
    · simp
    · have hne : a ≠ c.1 := fun e => hn.1 (e ▸ List.mem_map_of_mem (f := Prod.fst) h)
      rw [beq_false_of_ne hne]
      exact ih hn.2 h

/-- A key that is not listed finds nothing. -/
theorem lookup_of_not_mem {α β : Type} [DecidableEq α] {l : List (α × β)} {a : α} (h : a ∉ l.map Prod.fst) :
    l.lookup a = none := by
  rw [List.lookup_eq_none_iff]
  intro c hc
  have hne : a ≠ c.1 := by
    rintro rfl
    exact h (List.mem_map_of_mem hc)
  simpa using hne

@[simp] theorem map_fst_rOps (o : OpcodeTable) : (rOps o).map Prod.fst = o.rNumbers := rfl

@[simp] theorem map_fst_mOps (o : OpcodeTable) : (mOps o).map Prod.fst = o.mNumbers := rfl

@[simp] theorem map_fst_aOps (o : OpcodeTable) : (aOps o).map Prod.fst = o.aNumbers := rfl

@[simp] theorem map_fst_bOps (o : OpcodeTable) : (bOps o).map Prod.fst = o.bNumbers := rfl

/-- What an assignment the spec admits gives. -/
theorem opcodeTable_ok {o : OpcodeTable} (h : o.ok = true) :
    (o.rNumbers ++ o.mNumbers).Nodup ∧ (∀ n ∈ o.rNumbers ++ o.mNumbers, n.msb = false) ∧ o.aNumbers.Nodup ∧
      7#3 ∉ o.aNumbers ∧ o.bNumbers.Nodup := by
  simpa only [OpcodeTable.ok, Bool.and_eq_true, decide_eq_true_eq, List.all_eq_true, Bool.not_eq_eq_eq_not, Bool.not_true,
    and_assoc] using h

/-! ### The opcode byte of any word -/

theorem msb_eq_opbField (w : Word) : w.msb = (opbField w).msb := by
  rw [BitVec.msb_eq_getLsbD_last, BitVec.msb_eq_getLsbD_last]
  simp [opbField]

theorem selField_eq_opbField (w : Word) : selField w = (opbField w).extractLsb' 4 3 := by
  apply BitVec.eq_of_getLsbD_eq
  intro i hi
  simp only [selField, opbField, BitVec.getLsbD_extractLsb', hi, decide_true, Bool.true_and, show 4 + i < 8 by omega,
    show 24 + (4 + i) = 28 + i by omega]

theorem condField_eq_opbField (w : Word) : condField w = (opbField w).extractLsb' 0 4 := by
  apply BitVec.eq_of_getLsbD_eq
  intro i hi
  simp only [condField, opbField, BitVec.getLsbD_extractLsb', hi, decide_true, Bool.true_and, Nat.zero_add,
    show i < 8 by omega]

theorem opbField_eq_div (w : Word) : opbField w = BitVec.ofNat 8 (w.toNat / 2 ^ 24) := by
  apply BitVec.eq_of_toNat_eq
  simp [opbField, BitVec.extractLsb'_toNat, Nat.shiftRight_eq_div_pow]

/-! ### The fixed bits of the opcode table -/

theorem and_opbMask (w : Word) : w &&& 0xFF000000#32 = (opbField w).setWidth 32 <<< 24 := by
  apply BitVec.eq_of_getLsbD_eq
  intro i hi
  simp only [opbField, BitVec.getLsbD_and, BitVec.getLsbD_shiftLeft, BitVec.getLsbD_setWidth, BitVec.getLsbD_extractLsb']
  by_cases h : i < 24
  · have hbit : (0xFF000000#32).getLsbD i = false := by interval_cases i <;> rfl
    simp [h, hbit]
  · have hbit : (0xFF000000#32).getLsbD i = true := by interval_cases i <;> rfl
    simp [h, hbit, hi, show i - 24 < 32 by omega, show i - 24 < 8 by omega, show 24 + (i - 24) = i by omega]

theorem rWord_and_opbMask (opb : BitVec 8) (rb : BitVec 2) (low : BitVec 22) :
    rWord opb rb low &&& 0xFF000000#32 = opb.setWidth 32 <<< 24 := by rw [and_opbMask, opbField_rWord]

theorem mWord_and_opbMask (opb : BitVec 8) (rd base : Reg) (offset : Word) :
    mWord opb rd base offset &&& 0xFF000000#32 = opb.setWidth 32 <<< 24 := by
  rw [mWord_eq_rWord, rWord_and_opbMask]

theorem bWord_and_opbMask (cond : BitVec 4) (offset : Word) :
    bWord cond offset &&& 0xFF000000#32 = (0xF#32 <<< 28) ||| (cond.setWidth 32 <<< 24) := by
  apply BitVec.eq_of_getLsbD_eq
  intro i hi
  simp only [bWord, BitVec.getLsbD_and, BitVec.getLsbD_or, BitVec.getLsbD_setWidth]
  by_cases h : i < 24
  · have hbit : (0xFF000000#32).getLsbD i = false := by interval_cases i <;> rfl
    have hclass : (0xF#32 <<< 28).getLsbD i = false := by interval_cases i <;> rfl
    rw [hbit, hclass]
    simp [h]
  · have hbit : (0xFF000000#32).getLsbD i = true := by interval_cases i <;> rfl
    rw [hbit]
    simp [h, hi]

theorem aWord_and_nibMask (sel : BitVec 3) (target : Word) :
    aWord sel target &&& 0xF0000000#32 = (1#32 <<< 31) ||| (sel.setWidth 32 <<< 28) := by
  apply BitVec.eq_of_getLsbD_eq
  intro i hi
  simp only [aWord, BitVec.getLsbD_and, BitVec.getLsbD_or, BitVec.getLsbD_setWidth]
  by_cases h : i < 28
  · have hbit : (0xF0000000#32).getLsbD i = false := by interval_cases i <;> rfl
    have hclass : (1#32 <<< 31).getLsbD i = false := by interval_cases i <;> rfl
    rw [hbit, hclass]
    simp [h]
  · have hbit : (0xF0000000#32).getLsbD i = true := by interval_cases i <;> rfl
    rw [hbit]
    simp [h, hi]

end Sys2Proof
end

