-- ==== Sys2Proof/Laws/Memory.lean ====
section
/-! SUPPORT. The laws of memory: a read after a write, and the canonical form that every operation keeps. -/

namespace Sys2Proof.Machine

variable {fill : Word}

/-! ### Erasing and inserting a cell -/

theorem readByte_erase (m : Memory) (k j : Nat) :
    (m.erase k).readByte fill j = if j = k then Memory.fillByte fill j else m.readByte fill j := by
  induction m with
  | nil => simp [Memory.erase, Memory.readByte]
  | cons c m ih =>
    simp only [Memory.erase]
    by_cases hc : c.1 = k
    · rw [if_pos hc, ih, Memory.readByte]
      split
      · rfl
      · rw [if_neg (by omega)]
    · rw [if_neg hc, Memory.readByte, Memory.readByte, ih]
      by_cases hj : j = k
      · rw [if_pos hj, if_pos hj, if_neg (by omega)]
      · rw [if_neg hj, if_neg hj]

theorem ne_of_mem_erase {m : Memory} {k : Nat} {c : Host.Cell} (h : c ∈ m.erase k) : c.1 ≠ k ∧ c ∈ m := by
  induction m with
  | nil => simp [Memory.erase] at h
  | cons d m ih =>
    simp only [Memory.erase] at h
    split at h
    · exact ⟨(ih h).1, List.mem_cons_of_mem _ (ih h).2⟩
    · rcases List.mem_cons.1 h with rfl | h
      · exact ⟨by assumption, List.mem_cons_self⟩
      · exact ⟨(ih h).1, List.mem_cons_of_mem _ (ih h).2⟩

theorem mem_insert {m : Memory} {k : Nat} {v : Byte} {c : Host.Cell} :
    c ∈ m.insert k v ↔ c = (k, v) ∨ c ∈ m := by
  induction m with
  | nil => simp [Memory.insert]
  | cons d m ih =>
    simp only [Memory.insert]
    split
    · simp
    · simp only [List.mem_cons, ih]; tauto

theorem readByte_insert {m : Memory} {k : Nat} (v : Byte) (j : Nat) (h : ∀ c ∈ m, c.1 ≠ k) :
    (m.insert k v).readByte fill j = if j = k then v else m.readByte fill j := by
  induction m with
  | nil => simp [Memory.insert, Memory.readByte, eq_comm]
  | cons d m ih =>
    have hd : d.1 ≠ k := h d List.mem_cons_self
    have ih := ih fun c hc => h c (List.mem_cons_of_mem _ hc)
    simp only [Memory.insert]
    by_cases hj : j = k
    · subst hj
      simp only [if_pos]
      split
      · rw [Memory.readByte, if_pos rfl]
      · rw [Memory.readByte, if_neg hd, ih, if_pos rfl]
    · rw [if_neg hj]
      split
      · rw [Memory.readByte, if_neg (Ne.symm hj)]
      · rw [Memory.readByte, ih, if_neg hj, ← Memory.readByte]

/-! ### Read after write, bytes and words -/

theorem readByte_writeByte (m : Memory) (k : Nat) (v : Byte) (j : Nat) :
    (m.writeByte fill k v).readByte fill j = if j = k then v else m.readByte fill j := by
  unfold Memory.writeByte
  split
  · rw [readByte_erase]; split <;> simp_all
  · rw [readByte_insert v j fun c hc => (ne_of_mem_erase hc).1, readByte_erase]; split <;> simp_all

/-- Everything a word write does to the bytes. -/
theorem readByte_writeWord (m : Memory) (a : Nat) (v : Word) (j : Nat) :
    (m.writeWord fill a v).readByte fill j =
      if j = 4 * a + 3 then v.extractLsb' 24 8 else if j = 4 * a + 2 then v.extractLsb' 16 8
      else if j = 4 * a + 1 then v.extractLsb' 8 8 else if j = 4 * a then v.extractLsb' 0 8 else m.readByte fill j := by
  simp only [Memory.writeWord, readByte_writeByte]

theorem readByte_writeWord_outside (m : Memory) (a : Nat) (v : Word) (j : Nat) (h : j < 4 * a ∨ 4 * a + 4 ≤ j) :
    (m.writeWord fill a v).readByte fill j = m.readByte fill j := by
  rw [readByte_writeWord, if_neg (by omega), if_neg (by omega), if_neg (by omega), if_neg (by omega)]

theorem word_of_bytes (v : Word) :
    (v.extractLsb' 24 8 ++ (v.extractLsb' 16 8 ++ (v.extractLsb' 8 8 ++ v.extractLsb' 0 8)) : Word) = v := by
  apply BitVec.eq_of_getLsbD_eq
  intro i hi
  simp only [BitVec.getLsbD_append, BitVec.getLsbD_extractLsb']
  split_ifs <;> first
    | (have h : 24 + (i - (8 + (8 + 8))) = i := by omega
       rw [h, decide_eq_true (by omega), Bool.true_and])
    | (have h : 16 + (i - (8 + 8)) = i := by omega
       rw [h, decide_eq_true (by omega), Bool.true_and])
    | (have h : 8 + (i - 8) = i := by omega
       rw [h, decide_eq_true (by omega), Bool.true_and])
    | (rw [Nat.zero_add, decide_eq_true (by omega), Bool.true_and])

@[simp] theorem readWord_writeWord_same (m : Memory) (a : Nat) (v : Word) : (m.writeWord fill a v).readWord fill a = v := by
  have h3 : (m.writeWord fill a v).readByte fill (4 * a + 3) = v.extractLsb' 24 8 := by
    rw [readByte_writeWord, if_pos rfl]
  have h2 : (m.writeWord fill a v).readByte fill (4 * a + 2) = v.extractLsb' 16 8 := by
    rw [readByte_writeWord, if_neg (by omega), if_pos rfl]
  have h1 : (m.writeWord fill a v).readByte fill (4 * a + 1) = v.extractLsb' 8 8 := by
    rw [readByte_writeWord, if_neg (by omega), if_neg (by omega), if_pos rfl]
  have h0 : (m.writeWord fill a v).readByte fill (4 * a) = v.extractLsb' 0 8 := by
    rw [readByte_writeWord, if_neg (by omega), if_neg (by omega), if_neg (by omega), if_pos rfl]
  rw [Memory.readWord, h3, h2, h1, h0]
  exact word_of_bytes v

theorem readWord_writeWord_ne (m : Memory) {a b : Nat} (v : Word) (h : b ≠ a) :
    (m.writeWord fill a v).readWord fill b = m.readWord fill b := by
  simp only [Memory.readWord]
  rw [readByte_writeWord_outside _ _ _ _ (by omega), readByte_writeWord_outside _ _ _ _ (by omega),
    readByte_writeWord_outside _ _ _ _ (by omega), readByte_writeWord_outside _ _ _ _ (by omega)]

theorem readWord_writeWord (m : Memory) (a b : Nat) (v : Word) :
    (m.writeWord fill a v).readWord fill b = if b = a then v else m.readWord fill b := by
  split
  · subst b; exact readWord_writeWord_same m a v
  · exact readWord_writeWord_ne m v (by assumption)

@[simp] theorem readWord_nil (a : Nat) : Memory.readWord fill [] a = fill := by
  rw [Memory.readWord]
  simpa [Memory.readByte, Memory.fillByte] using word_of_bytes fill

theorem readWord_writeWords (m : Memory) (a : Nat) (vs : List Word) (b : Nat) :
    (m.writeWords fill a vs).readWord fill b = if a ≤ b then vs.getD (b - a) (m.readWord fill b) else m.readWord fill b := by
  induction vs generalizing m a with
  | nil => simp [Memory.writeWords]
  | cons v vs ih =>
    simp only [Memory.writeWords, ih, readWord_writeWord]
    rcases Nat.lt_trichotomy b a with h | rfl | h
    · rw [if_neg (by omega), if_neg (by omega), if_neg (by omega)]
    · simp
    · rw [if_pos (by omega), if_neg (by omega), if_pos (by omega), show b - a = (b - (a + 1)) + 1 by omega]
      simp

/-! ### The canonical form -/

theorem pairwise_erase {m : Memory} (k : Nat) (h : m.Pairwise fun c d => c.1 < d.1) :
    (m.erase k).Pairwise fun c d => c.1 < d.1 := by
  induction m with
  | nil => exact h
  | cons d m ih =>
    rw [List.pairwise_cons] at h
    simp only [Memory.erase]
    split
    · exact ih h.2
    · exact List.pairwise_cons.2 ⟨fun c hc => h.1 c (ne_of_mem_erase hc).2, ih h.2⟩

theorem pairwise_insert {m : Memory} {k : Nat} (v : Byte) (h : m.Pairwise fun c d => c.1 < d.1) (hk : ∀ c ∈ m, c.1 ≠ k) :
    (m.insert k v).Pairwise fun c d => c.1 < d.1 := by
  induction m with
  | nil => simp [Memory.insert]
  | cons d m ih =>
    have hd : d.1 ≠ k := hk d List.mem_cons_self
    have h' := List.pairwise_cons.1 h
    simp only [Memory.insert]
    split
    · rename_i hlt
      refine List.pairwise_cons.2 ⟨fun c hc => ?_, h⟩
      rcases List.mem_cons.1 hc with rfl | hc
      · exact hlt
      · exact Nat.lt_trans hlt (h'.1 c hc)
    · rename_i hlt
      refine List.pairwise_cons.2 ⟨fun c hc => ?_, ih h'.2 fun c hc => hk c (List.mem_cons_of_mem _ hc)⟩
      rcases mem_insert.1 hc with rfl | hc
      · show d.1 < k; omega
      · exact h'.1 c hc

theorem wf_erase {m : Memory} (k : Nat) (h : m.wf fill) : (m.erase k).wf fill :=
  ⟨pairwise_erase k h.1, fun c hc => h.2 c (ne_of_mem_erase hc).2⟩

theorem wf_writeByte {m : Memory} (k : Nat) (v : Byte) (h : m.wf fill) : (m.writeByte fill k v).wf fill := by
  unfold Memory.writeByte
  split
  · exact wf_erase k h
  · rename_i hv
    refine ⟨pairwise_insert v (wf_erase k h).1 fun c hc => (ne_of_mem_erase hc).1, fun c hc => ?_⟩
    rcases mem_insert.1 hc with rfl | hc
    · exact hv
    · exact (wf_erase k h).2 c hc

theorem wf_nil : Memory.wf fill [] := by simp [Memory.wf]

/-- A word write keeps the canonical form. -/
theorem wf_writeWord {m : Memory} (a : Nat) (v : Word) (h : m.wf fill) : (m.writeWord fill a v).wf fill :=
  wf_writeByte _ _ (wf_writeByte _ _ (wf_writeByte _ _ (wf_writeByte _ _ h)))

theorem wf_writeWords {m : Memory} (a : Nat) (vs : List Word) (h : m.wf fill) : (m.writeWords fill a vs).wf fill := by
  induction vs generalizing m a with
  | nil => exact h
  | cons v vs ih => exact ih _ (wf_writeWord a v h)

theorem within_writeByte {m : Memory} {n k : Nat} (v : Byte) (h : m.within n) (hk : k < 4 * n) :
    (m.writeByte fill k v).within n := by
  intro c hc
  unfold Memory.writeByte at hc
  split at hc
  · exact h c (ne_of_mem_erase hc).2
  · rcases mem_insert.1 hc with rfl | hc
    · exact hk
    · exact h c (ne_of_mem_erase hc).2

/-- A word write inside the array lists only words of the array. -/
theorem within_writeWord {m : Memory} {n a : Nat} (v : Word) (h : m.within n) (ha : a < n) :
    (m.writeWord fill a v).within n :=
  within_writeByte _ (within_writeByte _ (within_writeByte _ (within_writeByte _ h (by omega)) (by omega)) (by omega))
    (by omega)

theorem within_writeWords {m : Memory} {n a : Nat} (vs : List Word) (h : m.within n) (ha : a + vs.length ≤ n) :
    (m.writeWords fill a vs).within n := by
  induction vs generalizing m a with
  | nil => exact h
  | cons v vs ih =>
    simp only [List.length_cons] at ha
    exact ih (within_writeWord v h (by omega)) (by omega)

/-! ### Equal memories are equal data -/

theorem readByte_of_forall_ne {m : Memory} {k : Nat} (h : ∀ c ∈ m, c.1 ≠ k) : m.readByte fill k = Memory.fillByte fill k := by
  induction m with
  | nil => rfl
  | cons d m ih =>
    rw [Memory.readByte, if_neg (h d List.mem_cons_self)]
    exact ih fun c hc => h c (List.mem_cons_of_mem _ hc)

/-- Two canonical memories that read the same everywhere are the same list. -/
theorem eq_of_readByte_eq {m m' : Memory} (h : m.wf fill) (h' : m'.wf fill)
    (heq : ∀ k, m.readByte fill k = m'.readByte fill k) : m = m' := by
  induction m generalizing m' with
  | nil =>
    cases m' with
    | nil => rfl
    | cons d m' =>
      have hd := heq d.1
      simp only [Memory.readByte, ↓reduceIte] at hd
      exact absurd hd.symm (h'.2 d List.mem_cons_self)
  | cons c m ih =>
    have hc := List.pairwise_cons.1 h.1
    have hcn : c.2 ≠ Memory.fillByte fill c.1 := h.2 c List.mem_cons_self
    cases m' with
    | nil =>
      have := heq c.1
      simp only [Memory.readByte, ↓reduceIte] at this
      exact absurd this hcn
    | cons d m' =>
      have hd := List.pairwise_cons.1 h'.1
      have hdn : d.2 ≠ Memory.fillByte fill d.1 := h'.2 d List.mem_cons_self
      have hm : ∀ k, k ≤ c.1 → Memory.readByte fill m k = Memory.fillByte fill k := fun k hk =>
        readByte_of_forall_ne fun e he => by have := hc.1 e he; omega
      have hm' : ∀ k, k ≤ d.1 → Memory.readByte fill m' k = Memory.fillByte fill k := fun k hk =>
        readByte_of_forall_ne fun e he => by have := hd.1 e he; omega
      have hlt : c.1 = d.1 := by
        rcases Nat.lt_trichotomy c.1 d.1 with hlt | heq' | hlt
        · have := heq c.1
          rw [Memory.readByte, if_pos rfl, Memory.readByte, if_neg (by omega), hm' _ (by omega)] at this
          exact absurd this hcn
        · exact heq'
        · have := heq d.1
          rw [Memory.readByte, if_neg (by omega), Memory.readByte, if_pos rfl, hm _ (by omega)] at this
          exact absurd this.symm hdn
      have hv : c.2 = d.2 := by
        have := heq c.1
        rwa [Memory.readByte, if_pos rfl, Memory.readByte, if_pos hlt.symm] at this
      have hcd : c = d := Prod.ext hlt hv
      subst hcd
      congr 1
      refine ih ⟨hc.2, fun e he => h.2 e (List.mem_cons_of_mem _ he)⟩
        ⟨hd.2, fun e he => h'.2 e (List.mem_cons_of_mem _ he)⟩ fun k => ?_
      by_cases hk : k = c.1
      · rw [hm k (by omega), hm' k (by omega)]
      · have := heq k
        rwa [Memory.readByte, if_neg (Ne.symm hk), Memory.readByte, if_neg (Ne.symm hk)] at this

end Sys2Proof.Machine
end

