-- ==== Sys2Proof/Laws/State.lean ====
section
/-! SUPPORT. One lemma per field and update of the state, so that no proof unfolds a record update. A register is always
read as `s.reg r`. -/

namespace Sys2Proof.Machine

variable (s : State) (r q : Reg) (v a ia : Word)

/-! ### Register writes -/

@[simp] theorem reg_setReg_same : (s.setReg r v).reg r = v := by cases r <;> rfl

theorem reg_setReg : (s.setReg r v).reg q = if q = r then v else s.reg q := by cases r <;> cases q <;> rfl

theorem reg_setReg_ne (h : q ≠ r) : (s.setReg r v).reg q = s.reg q := by rw [reg_setReg, if_neg h]

@[simp] theorem reg_setReg_fp_sp : (s.setReg .fp v).reg .sp = s.reg .sp := rfl
@[simp] theorem reg_setReg_acc_sp : (s.setReg .acc v).reg .sp = s.reg .sp := rfl
@[simp] theorem reg_setReg_sec_sp : (s.setReg .sec v).reg .sp = s.reg .sp := rfl
@[simp] theorem reg_setReg_sp_fp : (s.setReg .sp v).reg .fp = s.reg .fp := rfl
@[simp] theorem reg_setReg_acc_fp : (s.setReg .acc v).reg .fp = s.reg .fp := rfl
@[simp] theorem reg_setReg_sec_fp : (s.setReg .sec v).reg .fp = s.reg .fp := rfl
@[simp] theorem reg_setReg_sp_acc : (s.setReg .sp v).reg .acc = s.reg .acc := rfl
@[simp] theorem reg_setReg_fp_acc : (s.setReg .fp v).reg .acc = s.reg .acc := rfl
@[simp] theorem reg_setReg_sec_acc : (s.setReg .sec v).reg .acc = s.reg .acc := rfl
@[simp] theorem reg_setReg_sp_sec : (s.setReg .sp v).reg .sec = s.reg .sec := rfl
@[simp] theorem reg_setReg_fp_sec : (s.setReg .fp v).reg .sec = s.reg .sec := rfl
@[simp] theorem reg_setReg_acc_sec : (s.setReg .acc v).reg .sec = s.reg .sec := rfl

@[simp] theorem setReg_pc : (s.setReg r v).pc = s.pc := by cases r <;> rfl
@[simp] theorem setReg_mem : (s.setReg r v).mem = s.mem := by cases r <;> rfl
@[simp] theorem setReg_trap : (s.setReg r v).trap = s.trap := by cases r <;> rfl
@[simp] theorem setReg_status : (s.setReg r v).status = s.status := by cases r <;> rfl
@[simp] theorem setReg_cfg : (s.setReg r v).cfg = s.cfg := by cases r <;> rfl
@[simp] theorem setReg_rtsScript : (s.setReg r v).rtsScript = s.rtsScript := by cases r <;> rfl
@[simp] theorem setReg_rtsCalls : (s.setReg r v).rtsCalls = s.rtsCalls := by cases r <;> rfl

/-- Two states are equal when all four registers and all other fields are. -/
theorem State.ext_reg {s t : State} (hreg : ∀ r, s.reg r = t.reg r) (hpc : s.pc = t.pc) (hmem : s.mem = t.mem)
    (htrap : s.trap = t.trap) (hstatus : s.status = t.status) (hcfg : s.cfg = t.cfg)
    (hscript : s.rtsScript = t.rtsScript) (hcalls : s.rtsCalls = t.rtsCalls) : s = t := by
  cases s
  cases t
  have h0 := hreg .sp
  have h1 := hreg .fp
  have h2 := hreg .acc
  have h3 := hreg .sec
  simp only [State.reg] at h0 h1 h2 h3
  simp_all

/-! ### pc -/

@[simp] theorem reg_setPc : (s.setPc a).reg q = s.reg q := rfl
@[simp] theorem setPc_pc : (s.setPc a).pc = a := rfl
@[simp] theorem setPc_mem : (s.setPc a).mem = s.mem := rfl
@[simp] theorem setPc_trap : (s.setPc a).trap = s.trap := rfl
@[simp] theorem setPc_status : (s.setPc a).status = s.status := rfl
@[simp] theorem setPc_cfg : (s.setPc a).cfg = s.cfg := rfl
@[simp] theorem setPc_rtsScript : (s.setPc a).rtsScript = s.rtsScript := rfl
@[simp] theorem setPc_rtsCalls : (s.setPc a).rtsCalls = s.rtsCalls := rfl

@[simp] theorem reg_advance : s.advance.reg q = s.reg q := rfl
@[simp] theorem advance_pc : s.advance.pc = s.pc + 1#32 := rfl
@[simp] theorem advance_mem : s.advance.mem = s.mem := rfl
@[simp] theorem advance_trap : s.advance.trap = s.trap := rfl
@[simp] theorem advance_status : s.advance.status = s.status := rfl
@[simp] theorem advance_cfg : s.advance.cfg = s.cfg := rfl
@[simp] theorem advance_rtsScript : s.advance.rtsScript = s.rtsScript := rfl
@[simp] theorem advance_rtsCalls : s.advance.rtsCalls = s.rtsCalls := rfl

/-! ### Status, trap and memory -/

variable (st : Status) (m : Memory)

@[simp] theorem reg_setStatus : (s.setStatus st).reg q = s.reg q := rfl
@[simp] theorem setStatus_pc : (s.setStatus st).pc = s.pc := rfl
@[simp] theorem setStatus_mem : (s.setStatus st).mem = s.mem := rfl
@[simp] theorem setStatus_trap : (s.setStatus st).trap = s.trap := rfl
@[simp] theorem setStatus_status : (s.setStatus st).status = st := rfl
@[simp] theorem setStatus_cfg : (s.setStatus st).cfg = s.cfg := rfl
@[simp] theorem setStatus_rtsScript : (s.setStatus st).rtsScript = s.rtsScript := rfl
@[simp] theorem setStatus_rtsCalls : (s.setStatus st).rtsCalls = s.rtsCalls := rfl

@[simp] theorem reg_setTrap : (s.setTrap a).reg q = s.reg q := rfl
@[simp] theorem setTrap_pc : (s.setTrap a).pc = s.pc := rfl
@[simp] theorem setTrap_mem : (s.setTrap a).mem = s.mem := rfl
@[simp] theorem setTrap_trap : (s.setTrap a).trap = some a := rfl
@[simp] theorem setTrap_status : (s.setTrap a).status = s.status := rfl
@[simp] theorem setTrap_cfg : (s.setTrap a).cfg = s.cfg := rfl
@[simp] theorem setTrap_rtsScript : (s.setTrap a).rtsScript = s.rtsScript := rfl
@[simp] theorem setTrap_rtsCalls : (s.setTrap a).rtsCalls = s.rtsCalls := rfl

@[simp] theorem reg_setMem : (s.setMem m).reg q = s.reg q := rfl
@[simp] theorem setMem_pc : (s.setMem m).pc = s.pc := rfl
@[simp] theorem setMem_mem : (s.setMem m).mem = m := rfl
@[simp] theorem setMem_trap : (s.setMem m).trap = s.trap := rfl
@[simp] theorem setMem_status : (s.setMem m).status = s.status := rfl
@[simp] theorem setMem_cfg : (s.setMem m).cfg = s.cfg := rfl
@[simp] theorem setMem_rtsScript : (s.setMem m).rtsScript = s.rtsScript := rfl
@[simp] theorem setMem_rtsCalls : (s.setMem m).rtsCalls = s.rtsCalls := rfl

/-! ### Taking a fault -/

variable (k : FaultKind)

@[simp] theorem reg_raise : (s.raise ia k).reg q = s.reg q := rfl
@[simp] theorem raise_pc : (s.raise ia k).pc = ia := rfl
@[simp] theorem raise_mem : (s.raise ia k).mem = s.mem := rfl
@[simp] theorem raise_trap : (s.raise ia k).trap = s.trap := rfl
@[simp] theorem raise_status : (s.raise ia k).status = .fault k := rfl
@[simp] theorem raise_cfg : (s.raise ia k).cfg = s.cfg := rfl
@[simp] theorem raise_rtsScript : (s.raise ia k).rtsScript = s.rtsScript := rfl
@[simp] theorem raise_rtsCalls : (s.raise ia k).rtsCalls = s.rtsCalls := rfl

@[simp] theorem reg_raiseMem : (s.raiseMem ia a).reg q = s.reg q := rfl
@[simp] theorem raiseMem_pc : (s.raiseMem ia a).pc = ia := rfl
@[simp] theorem raiseMem_mem : (s.raiseMem ia a).mem = s.mem := rfl
@[simp] theorem raiseMem_trap : (s.raiseMem ia a).trap = some a := rfl
@[simp] theorem raiseMem_status : (s.raiseMem ia a).status = .fault .illegalMemoryAccess := rfl
@[simp] theorem raiseMem_cfg : (s.raiseMem ia a).cfg = s.cfg := rfl
@[simp] theorem raiseMem_rtsScript : (s.raiseMem ia a).rtsScript = s.rtsScript := rfl
@[simp] theorem raiseMem_rtsCalls : (s.raiseMem ia a).rtsCalls = s.rtsCalls := rfl

/-! ### Drawing an answer of the RTS -/

@[simp] theorem reg_rtsDrawn : s.rtsDrawn.reg q = s.reg q := rfl
@[simp] theorem rtsDrawn_pc : s.rtsDrawn.pc = s.pc := rfl
@[simp] theorem rtsDrawn_mem : s.rtsDrawn.mem = s.mem := rfl
@[simp] theorem rtsDrawn_trap : s.rtsDrawn.trap = s.trap := rfl
@[simp] theorem rtsDrawn_status : s.rtsDrawn.status = s.status := rfl
@[simp] theorem rtsDrawn_cfg : s.rtsDrawn.cfg = s.cfg := rfl
@[simp] theorem rtsDrawn_rtsScript : s.rtsDrawn.rtsScript = s.rtsScript.tail := rfl
@[simp] theorem rtsDrawn_rtsCalls : s.rtsDrawn.rtsCalls = s.rtsCalls + 1 := rfl

/-! ### Invocation -/

@[simp] theorem invoke_pc : (s.invoke a).pc = a := rfl
@[simp] theorem invoke_mem : (s.invoke a).mem = s.mem := rfl
@[simp] theorem invoke_trap : (s.invoke a).trap = none := rfl
@[simp] theorem invoke_status : (s.invoke a).status = .running := rfl
@[simp] theorem invoke_cfg : (s.invoke a).cfg = s.cfg := rfl
@[simp] theorem invoke_rtsScript : (s.invoke a).rtsScript = s.rtsScript := rfl
@[simp] theorem invoke_rtsCalls : (s.invoke a).rtsCalls = s.rtsCalls := rfl
@[simp] theorem reg_invoke_sp : (s.invoke a).reg .sp = s.cfg.initSp := rfl
@[simp] theorem reg_invoke_fp : (s.invoke a).reg .fp = s.cfg.initFp := rfl
@[simp] theorem reg_invoke_acc : (s.invoke a).reg .acc = s.cfg.initAcc := rfl
@[simp] theorem reg_invoke_sec : (s.invoke a).reg .sec = s.cfg.initSec := rfl

/-! ### Reading memory -/

variable (b k : Nat) (f : FaultKind)

@[simp] theorem readByte_setReg : (s.setReg r v).readByte k = s.readByte k := by cases r <;> rfl
@[simp] theorem readWord_setReg : (s.setReg r v).readWord b = s.readWord b := by cases r <;> rfl
@[simp] theorem readByte_setPc : (s.setPc a).readByte k = s.readByte k := rfl
@[simp] theorem readWord_setPc : (s.setPc a).readWord b = s.readWord b := rfl
@[simp] theorem readByte_advance : s.advance.readByte k = s.readByte k := rfl
@[simp] theorem readWord_advance : s.advance.readWord b = s.readWord b := rfl
@[simp] theorem readByte_setStatus : (s.setStatus st).readByte k = s.readByte k := rfl
@[simp] theorem readWord_setStatus : (s.setStatus st).readWord b = s.readWord b := rfl
@[simp] theorem readByte_setTrap : (s.setTrap a).readByte k = s.readByte k := rfl
@[simp] theorem readWord_setTrap : (s.setTrap a).readWord b = s.readWord b := rfl
@[simp] theorem readByte_raise : (s.raise ia f).readByte k = s.readByte k := rfl
@[simp] theorem readWord_raise : (s.raise ia f).readWord b = s.readWord b := rfl
@[simp] theorem readByte_raiseMem : (s.raiseMem ia a).readByte k = s.readByte k := rfl
@[simp] theorem readWord_raiseMem : (s.raiseMem ia a).readWord b = s.readWord b := rfl
@[simp] theorem readByte_rtsDrawn : s.rtsDrawn.readByte k = s.readByte k := rfl
@[simp] theorem readWord_rtsDrawn : s.rtsDrawn.readWord b = s.readWord b := rfl
@[simp] theorem readByte_invoke : (s.invoke a).readByte k = s.readByte k := rfl
@[simp] theorem readWord_invoke : (s.invoke a).readWord b = s.readWord b := rfl

theorem readByte_setMem : (s.setMem m).readByte k = m.readByte s.cfg.memFill k := rfl
theorem readWord_setMem : (s.setMem m).readWord b = m.readWord s.cfg.memFill b := rfl

/-- Two states with one memory and one configuration read the same. -/
theorem readByte_congr {s t : State} (hmem : t.mem = s.mem) (hcfg : t.cfg = s.cfg) (k : Nat) : t.readByte k = s.readByte k := by
  rw [State.readByte, State.readByte, hmem, hcfg]

theorem readWord_congr {s t : State} (hmem : t.mem = s.mem) (hcfg : t.cfg = s.cfg) (b : Nat) : t.readWord b = s.readWord b := by
  rw [State.readWord, State.readWord, hmem, hcfg]

/-- A word is determined by its four bytes. -/
theorem readWord_of_readByte {s t : State} {b : Nat} (h : ∀ k, 4 * b ≤ k → k < 4 * b + 4 → t.readByte k = s.readByte k) :
    t.readWord b = s.readWord b := by
  simp only [State.readByte] at h
  simp only [State.readWord, Memory.readWord]
  rw [h _ (by omega) (by omega), h _ (by omega) (by omega), h _ (by omega) (by omega), h _ (by omega) (by omega)]

/-! ### Writing memory -/

@[simp] theorem reg_writeWord : (s.writeWord b v).reg q = s.reg q := rfl
@[simp] theorem writeWord_pc : (s.writeWord b v).pc = s.pc := rfl
@[simp] theorem writeWord_mem : (s.writeWord b v).mem = s.mem.writeWord s.cfg.memFill b v := rfl
@[simp] theorem writeWord_trap : (s.writeWord b v).trap = s.trap := rfl
@[simp] theorem writeWord_status : (s.writeWord b v).status = s.status := rfl
@[simp] theorem writeWord_cfg : (s.writeWord b v).cfg = s.cfg := rfl
@[simp] theorem writeWord_rtsScript : (s.writeWord b v).rtsScript = s.rtsScript := rfl
@[simp] theorem writeWord_rtsCalls : (s.writeWord b v).rtsCalls = s.rtsCalls := rfl

/-! ### Operands -/

@[simp] theorem srcVal_reg : s.srcVal (.reg r) = s.reg r := rfl
@[simp] theorem srcVal_imm : s.srcVal (.imm v) = v := rfl

theorem effAddr_eq : s.effAddr r v = s.reg r + v := rfl

end Sys2Proof.Machine
end

