-- ==== Sys2Proof/Laws/Ops.lean ====
section
/-! SUPPORT. For each shared operation one lemma that says once everything it can do. Later proofs cite these and do not unfold
the operations. -/

namespace Sys2Proof.Machine

/-! ### Bounds-checked accesses -/

theorem inRange_iff {s : State} {a : Word} : s.inRange a = true ↔ a.toNat < s.cfg.memSize := by
  simp [State.inRange]

theorem not_inRange_iff {s : State} {a : Word} : s.inRange a = false ↔ s.cfg.memSize ≤ a.toNat := by
  simp [State.inRange]

/-- Whether an address is in range depends on the configuration alone. -/
theorem inRange_congr {s t : State} (h : t.cfg = s.cfg) (a : Word) : t.inRange a = s.inRange a := by
  simp [State.inRange, h]

theorem memRead_of_inRange {s : State} {a : Word} (h : s.inRange a = true) :
    s.memRead a = some (s.readWord a.toNat) := by simp [State.memRead, h]

theorem memRead_of_not_inRange {s : State} {a : Word} (h : s.inRange a = false) : s.memRead a = none := by
  simp [State.memRead, h]

theorem memWrite_of_inRange {s : State} {a : Word} (v : Word) (h : s.inRange a = true) :
    s.memWrite a v = some (s.writeWord a.toNat v) := by simp [State.memWrite, h]

theorem memWrite_of_not_inRange {s : State} {a : Word} (v : Word) (h : s.inRange a = false) :
    s.memWrite a v = none := by simp [State.memWrite, h]

/-- What a push of CALL does: it writes where the stack pointer points and moves it down, or does nothing. -/
theorem pushWord_of_inRange {s : State} (v : Word) (h : s.inRange (s.reg .sp) = true) :
    s.pushWord v = some ((s.writeWord (s.reg .sp).toNat v).setReg .sp (s.reg .sp - 1#32)) := by
  simp [State.pushWord, memWrite_of_inRange v h]

theorem pushWord_of_not_inRange {s : State} (v : Word) (h : s.inRange (s.reg .sp) = false) : s.pushWord v = none := by
  simp [State.pushWord, memWrite_of_not_inRange v h]

/-! ### Arithmetic -/

/-- An ALU operation writes its destination and nothing else. -/
theorem aluOp_writesOnly (f : Word → Word → Word) (rb : Reg) (src : Src) (s : State) :
    s.WritesOnly (aluOp f rb src s) rb (f (s.reg rb) (s.srcVal src)) where
  written := by simp [aluOp]
  others q h := by simp [aluOp, reg_setReg_ne _ _ _ _ h]
  pc := by simp [aluOp]
  mem := by simp [aluOp]
  rest := by constructor <;> simp [aluOp]

theorem divideOp_of_ne_zero (f : Word → Word → Word) (rb : Reg) {src : Src} {s : State} (h : s.srcVal src ≠ 0#32) :
    divideOp f rb src s = aluOp f rb src s := by simp [divideOp, h]

theorem divideOp_of_zero (f : Word → Word → Word) (rb : Reg) {src : Src} {s : State} (h : s.srcVal src = 0#32) :
    divideOp f rb src s = s.advance.raise s.pc .divisionByZero := by simp [divideOp, h]

/-- SHL by a count of 0 to 31, under either law. -/
theorem shiftLeft_of_lt (law : ShiftLaw) (a : Word) {b : Word} (h : b.toNat < 32) : shiftLeft law a b = a <<< b.toNat := by
  cases law
  · simp [shiftLeft, shiftCount, BitVec.extractLsb'_toNat, Nat.mod_eq_of_lt h]
  · simp [shiftLeft, h]

/-- The bits that SHR moves, for a count of 0 to 31, under either law. -/
theorem getLsbD_shiftRight_of_lt (law : ShiftLaw) (a : Word) {b : Word} {k : Nat} (h : k + b.toNat < 32) :
    (shiftRight law a b).getLsbD k = a.getLsbD (k + b.toNat) := by
  have hb : b.toNat < 32 := by omega
  cases law
  · simp [shiftRight, shiftCount, BitVec.extractLsb'_toNat, Nat.mod_eq_of_lt hb, Nat.add_comm]
  · have hone : ((-1#32 : Word) >>> b.toNat).getLsbD k = true := by
      have hall : ∀ j : Fin 32, (-1#32 : Word).getLsbD j.val = true := by decide
      rw [BitVec.getLsbD_ushiftRight]
      exact hall ⟨_, by omega⟩
    rw [shiftRight, BitVec.getLsbD_or, BitVec.getLsbD_and, BitVec.getLsbD_not, hone]
    simp [Nat.add_comm]

/-- The law of division does not matter where neither operand is negative. -/
theorem quotient_of_law {law : DivLaw} {a b : Word} (h : law = .truncate ∨ (0 ≤ a.toInt ∧ 0 ≤ b.toInt)) :
    quotient law a b = a.sdiv b := by
  cases law
  · rfl
  · obtain ⟨ha, hb⟩ := h.resolve_left DivLaw.noConfusion
    simp [quotient, BitVec.msb_eq_toInt, Int.not_lt.2 ha, Int.not_lt.2 hb]

theorem remainder_of_law {law : DivLaw} {a b : Word} (h : law = .truncate ∨ (0 ≤ a.toInt ∧ 0 ≤ b.toInt)) :
    remainder law a b = a.srem b := by
  cases law
  · rfl
  · obtain ⟨ha, hb⟩ := h.resolve_left DivLaw.noConfusion
    simp [remainder, BitVec.msb_eq_toInt, Int.not_lt.2 ha, Int.not_lt.2 hb]

/-- A raise before anything was written takes the fault and changes nothing else. -/
theorem raise_takesFault (s : State) (k : FaultKind) : s.TakesFault (s.advance.raise s.pc k) k := by
  constructor <;> simp

/-- A memory fault raised before anything was written. -/
theorem raiseMem_takesMemFault (s : State) (a : Word) : s.TakesMemFault (s.advance.raiseMem s.pc a) a := by
  constructor
  · constructor <;> simp
  all_goals simp

/-! ### Load and store -/

theorem loadInto_of_inRange (rd : Reg) {ea : Word} {s : State} (h : s.inRange ea = true) :
    loadInto rd ea s = s.advance.setReg rd (s.readWord ea.toNat) := by
  have h' : s.advance.inRange ea = true := h
  simp [loadInto, memRead_of_inRange h']

theorem loadInto_of_not_inRange (rd : Reg) {ea : Word} {s : State} (h : s.inRange ea = false) :
    loadInto rd ea s = s.advance.raiseMem s.pc ea := by
  have h' : s.advance.inRange ea = false := h
  simp [loadInto, memRead_of_not_inRange h']

theorem storeFrom_of_inRange (rd : Reg) {ea : Word} {s : State} (h : s.inRange ea = true) :
    storeFrom rd ea s = s.advance.writeWord ea.toNat (s.reg rd) := by
  have h' : s.advance.inRange ea = true := h
  simp [storeFrom, memWrite_of_inRange _ h']

theorem storeFrom_of_not_inRange (rd : Reg) {ea : Word} {s : State} (h : s.inRange ea = false) :
    storeFrom rd ea s = s.advance.raiseMem s.pc ea := by
  have h' : s.advance.inRange ea = false := h
  simp [storeFrom, memWrite_of_not_inRange _ h']

/-- Everything a write of one word does to the words and bytes of memory. -/
theorem readWord_writeWord_state (s : State) (a b : Nat) (v : Word) :
    (s.writeWord a v).readWord b = if b = a then v else s.readWord b := readWord_writeWord s.mem a b v

theorem readByte_writeWord_state (s : State) (a : Nat) (v : Word) (k : Nat) (h : k < 4 * a ∨ 4 * a + 4 ≤ k) :
    (s.writeWord a v).readByte k = s.readByte k := readByte_writeWord_outside s.mem a v k h

theorem writeWord_storesOnly (s : State) (a : Nat) (v : Word) : s.StoresOnly (s.writeWord a v) a v :=
  ⟨readWord_writeWord_same s.mem a v, readByte_writeWord_state s a v⟩

/-! ### Stack -/

theorem execPush_of_inRange (src : Src) {s : State} (h : s.inRange (s.reg .sp) = true) :
    execPush src s =
      .next ((s.advance.writeWord (s.reg .sp).toNat (s.srcVal src)).setReg .sp (s.reg .sp - 1#32)) := by
  have h' : s.advance.inRange (s.reg .sp) = true := h
  simp [execPush, memWrite_of_inRange _ h']

theorem execPush_of_not_inRange (src : Src) {s : State} (h : s.inRange (s.reg .sp) = false) :
    execPush src s = .next (s.advance.raiseMem s.pc (s.reg .sp)) := by
  have h' : s.advance.inRange (s.reg .sp) = false := h
  simp [execPush, memWrite_of_not_inRange _ h']

theorem execPop_of_inRange (rb : Reg) {s : State} (h : s.inRange (s.reg .sp + 1#32) = true) :
    execPop rb s = .next ((s.advance.setReg .sp (s.reg .sp + 1#32)).setReg rb
      (s.readWord (s.reg .sp + 1#32).toNat)) := by
  have h' : s.advance.inRange (s.reg .sp + 1#32) = true := h
  simp only [execPop, memRead_of_inRange h', readWord_advance]

theorem execPop_of_not_inRange (rb : Reg) {s : State} (h : s.inRange (s.reg .sp + 1#32) = false) :
    execPop rb s = .next (s.advance.raiseMem s.pc (s.reg .sp + 1#32)) := by
  have h' : s.advance.inRange (s.reg .sp + 1#32) = false := h
  simp [execPop, memRead_of_not_inRange h']

/-! ### Call and return -/

/-- The writes of CALL: the saved frame pointer, then the return address below it. -/
def callWrites (s : State) : State :=
  (s.writeWord (s.reg .sp).toNat (s.reg .fp)).writeWord (s.reg .sp - 1#32).toNat (s.pc + 1#32)

section

variable (s : State) (q : Reg)

@[simp] theorem reg_callWrites : (callWrites s).reg q = s.reg q := rfl
@[simp] theorem callWrites_pc : (callWrites s).pc = s.pc := rfl
@[simp] theorem callWrites_trap : (callWrites s).trap = s.trap := rfl
@[simp] theorem callWrites_status : (callWrites s).status = s.status := rfl
@[simp] theorem callWrites_cfg : (callWrites s).cfg = s.cfg := rfl
@[simp] theorem callWrites_rtsScript : (callWrites s).rtsScript = s.rtsScript := rfl
@[simp] theorem callWrites_rtsCalls : (callWrites s).rtsCalls = s.rtsCalls := rfl

end

/-- The two slots of CALL are different words. -/
theorem toNat_sub_one_ne (v : Word) : (v - 1#32).toNat ≠ v.toNat := by
  intro h
  have heq : v - 1#32 = v := BitVec.eq_of_toNat_eq h
  bv_omega

/-- What the writes of CALL leave in memory. -/
theorem callWrites_storesTwo (s : State) :
    s.StoresTwo (callWrites s) (s.reg .sp).toNat (s.reg .fp) (s.reg .sp - 1#32).toNat (s.pc + 1#32) where
  first := by
    rw [callWrites, readWord_writeWord_state, if_neg (toNat_sub_one_ne _).symm, readWord_writeWord_state, if_pos rfl]
  second := by rw [callWrites, readWord_writeWord_state, if_pos rfl]
  others k h h' := by rw [callWrites, readByte_writeWord_state _ _ _ _ h', readByte_writeWord_state _ _ _ _ h]

/-- CALL where both words can be written. -/
theorem callTo_completes (target : Word) {s : State} (h : s.inRange (s.reg .sp) = true)
    (h' : s.inRange (s.reg .sp - 1#32) = true) :
    callTo target s = (((callWrites s).setReg .fp (s.reg .sp - 1#32)).setReg .sp
      (s.reg .sp - 1#32 - 1#32)).setPc target := by
  have h₁ : s.advance.inRange (s.advance.reg .sp) = true := h
  simp only [callTo, pushWord_of_inRange _ h₁]
  rw [pushWord_of_inRange _ (by simpa [State.inRange] using h')]
  rfl

/-- CALL where the first write is out of range. -/
theorem callTo_first_faults (target : Word) {s : State} (h : s.inRange (s.reg .sp) = false) :
    callTo target s = s.advance.raiseMem s.pc (s.reg .sp) := by
  have h₁ : s.advance.inRange (s.advance.reg .sp) = false := h
  simp only [callTo, pushWord_of_not_inRange _ h₁]

/-- CALL where the second write is out of range: the first is done. -/
theorem callTo_second_faults (target : Word) {s : State} (h : s.inRange (s.reg .sp) = true)
    (h' : s.inRange (s.reg .sp - 1#32) = false) :
    callTo target s = (((s.writeWord (s.reg .sp).toNat (s.reg .fp)).setReg .sp
      (s.reg .sp - 1#32)).setReg .fp (s.reg .sp - 1#32)).raiseMem s.pc (s.reg .sp - 1#32) := by
  have h₁ : s.advance.inRange (s.advance.reg .sp) = true := h
  simp only [callTo, pushWord_of_inRange _ h₁]
  rw [pushWord_of_not_inRange _ (by simpa [State.inRange] using h')]
  rfl

/-- RET where both words can be read. -/
theorem execRet_completes {s : State} (h : s.inRange (s.reg .fp) = true) (h' : s.inRange (s.reg .fp + 1#32) = true) :
    execRet s = .next (((s.setReg .sp (s.reg .fp + 1#32)).setReg .fp
      (s.readWord (s.reg .fp + 1#32).toNat)).setPc (s.readWord (s.reg .fp).toNat)) := by
  have h₁ : s.advance.inRange (s.reg .fp) = true := h
  simp only [execRet, memRead_of_inRange h₁]
  rw [memRead_of_inRange (by simpa [State.inRange] using h')]
  rfl

theorem execRet_first_faults {s : State} (h : s.inRange (s.reg .fp) = false) :
    execRet s = .next (s.advance.raiseMem s.pc (s.reg .fp)) := by
  have h₁ : s.advance.inRange (s.reg .fp) = false := h
  simp only [execRet, memRead_of_not_inRange h₁]

/-- RET where the second read is out of range: the stack pointer is changed. -/
theorem execRet_second_faults {s : State} (h : s.inRange (s.reg .fp) = true)
    (h' : s.inRange (s.reg .fp + 1#32) = false) :
    execRet s = .next ((s.setReg .sp (s.reg .fp + 1#32)).raiseMem s.pc (s.reg .fp + 1#32)) := by
  have h₁ : s.advance.inRange (s.reg .fp) = true := h
  simp only [execRet, memRead_of_inRange h₁]
  rw [memRead_of_not_inRange (by simpa [State.inRange] using h')]
  rfl

/-! ### Branches -/

/-- A branch sets pc and nothing else. -/
theorem branchIf_transfersOnly (cond : Word → Bool) (offset : Word) (s : State) :
    s.TransfersOnly (branchIf cond offset s)
      (if cond (s.reg .acc) then s.pc + 1#32 + offset else s.pc + 1#32) := by
  unfold branchIf
  split
  · exact ⟨fun _ => rfl, rfl, rfl, ⟨rfl, rfl, rfl, rfl, rfl⟩⟩
  · exact ⟨fun _ => rfl, rfl, rfl, ⟨rfl, rfl, rfl, rfl, rfl⟩⟩

/-! ### The accesses of a system call -/

theorem rtsAccesses_read_inRange {s : State} {a : Word} (rest : List RtsAccess) (h : s.inRange a = true) :
    s.rtsAccesses (.read a :: rest) = s.rtsAccesses rest := by simp [State.rtsAccesses, h]

theorem rtsAccesses_write_inRange {s : State} {a : Word} (v : Word) (rest : List RtsAccess) (h : s.inRange a = true) :
    s.rtsAccesses (.write a v :: rest) = (s.writeWord a.toNat v).rtsAccesses rest := by
  simp [State.rtsAccesses, memWrite_of_inRange v h]

theorem rtsAccesses_not_inRange {s : State} (x : RtsAccess) (rest : List RtsAccess)
    (h : s.inRange (accessAddr x) = false) : s.rtsAccesses (x :: rest) = .outside s (accessAddr x) := by
  cases x with
  | read a => simp [State.rtsAccesses, show s.inRange a = false from h, accessAddr]
  | write a v => simp [State.rtsAccesses, memWrite_of_not_inRange v (show s.inRange a = false from h), accessAddr]

/-- Everything the accesses of the RTS can do: they leave all but memory alone, finish or stop at an address outside memory,
change no byte outside the words they write, and keep memory's canonical form. -/
theorem rtsAccesses_cases (accesses : List RtsAccess) (s : State) :
    ∃ m, (s.rtsAccesses accesses = .finished (s.setMem m) ∨
        ∃ a, s.inRange a = false ∧ s.rtsAccesses accesses = .outside (s.setMem m) a) ∧
      (∀ k, (∀ a ∈ writtenAddrs accesses, k < 4 * a.toNat ∨ 4 * a.toNat + 4 ≤ k) → m.readByte s.cfg.memFill k = s.readByte k) ∧
      (s.mem.wf s.cfg.memFill → m.wf s.cfg.memFill) ∧ (s.mem.within s.cfg.memSize → m.within s.cfg.memSize) := by
  induction accesses generalizing s with
  | nil => exact ⟨s.mem, .inl rfl, fun _ _ => rfl, id, id⟩
  | cons x rest ih =>
    by_cases hx : s.inRange (accessAddr x) = true
    · cases x with
      | read a =>
        obtain ⟨m, hm, hrest⟩ := ih s
        exact ⟨m, by rwa [rtsAccesses_read_inRange (a := a) rest hx], hrest⟩
      | write a v =>
        obtain ⟨m, hm, hb, hwf, hin⟩ := ih (s.writeWord a.toNat v)
        refine ⟨m, by rwa [rtsAccesses_write_inRange (a := a) v rest hx], fun k hk => ?_, fun h => hwf (wf_writeWord _ _ h),
          fun h => hin (within_writeWord _ h (inRange_iff.1 hx))⟩
        rw [← readByte_writeWord_state s _ v k (hk a List.mem_cons_self)]
        exact hb k fun c hc => hk c (List.mem_cons_of_mem _ hc)
    · have hx : s.inRange (accessAddr x) = false := by simpa using hx
      exact ⟨s.mem, .inr ⟨_, hx, rtsAccesses_not_inRange x rest hx⟩, fun _ _ => rfl, id, id⟩

/-- Accesses that are all in memory finish, with the last write to each word. -/
theorem rtsAccesses_finishes (accesses : List RtsAccess) (s : State) (h : s.allInRange accesses) :
    ∃ m, s.rtsAccesses accesses = .finished (s.setMem m) ∧
      (∀ b, m.readWord s.cfg.memFill b = wordAfter accesses b (s.readWord b)) ∧
      ∀ k, (∀ a ∈ writtenAddrs accesses, k < 4 * a.toNat ∨ 4 * a.toNat + 4 ≤ k) → m.readByte s.cfg.memFill k = s.readByte k := by
  induction accesses generalizing s with
  | nil => exact ⟨s.mem, rfl, fun _ => rfl, fun _ _ => rfl⟩
  | cons x rest ih =>
    have hrest : s.allInRange rest := fun y hy => h y (List.mem_cons_of_mem _ hy)
    have hx := h x List.mem_cons_self
    cases x with
    | read a =>
      obtain ⟨m, hm, hw, hb⟩ := ih s hrest
      exact ⟨m, by rwa [rtsAccesses_read_inRange (a := a) rest hx], hw, hb⟩
    | write a v =>
      obtain ⟨m, hm, hw, hb⟩ := ih (s.writeWord a.toNat v) hrest
      refine ⟨m, by rwa [rtsAccesses_write_inRange (a := a) v rest hx], fun b => ?_, fun k hk => ?_⟩
      · rw [wordAfter, show (if a.toNat = b then v else s.readWord b) = (s.writeWord a.toNat v).readWord b by
          rw [readWord_writeWord_state]; simp only [eq_comm]]
        exact hw b
      · rw [← readByte_writeWord_state s _ v k (hk a List.mem_cons_self)]
        exact hb k fun c hc => hk c (List.mem_cons_of_mem _ hc)

/-- The first access outside memory ends them, with the writes before it done. -/
theorem rtsAccesses_outside (before after : List RtsAccess) (x : RtsAccess) (s : State) (h : s.allInRange before)
    (hx : s.inRange (accessAddr x) = false) :
    ∃ m, s.rtsAccesses (before ++ x :: after) = .outside (s.setMem m) (accessAddr x) ∧
      ∀ b, m.readWord s.cfg.memFill b = wordAfter before b (s.readWord b) := by
  induction before generalizing s with
  | nil =>
    exact ⟨s.mem, rtsAccesses_not_inRange x after hx, fun _ => rfl⟩
  | cons y rest ih =>
    have hrest : s.allInRange rest := fun z hz => h z (List.mem_cons_of_mem _ hz)
    have hy := h y List.mem_cons_self
    cases y with
    | read a =>
      obtain ⟨m, hm, hw⟩ := ih s hrest hx
      exact ⟨m, by rwa [List.cons_append, rtsAccesses_read_inRange (a := a) _ hy], hw⟩
    | write a v =>
      obtain ⟨m, hm, hw⟩ := ih (s.writeWord a.toNat v) hrest hx
      refine ⟨m, by rwa [List.cons_append, rtsAccesses_write_inRange (a := a) v _ hy], fun b => ?_⟩
      · rw [wordAfter, show (if a.toNat = b then v else s.readWord b) = (s.writeWord a.toNat v).readWord b by
          rw [readWord_writeWord_state]; simp only [eq_comm]]
        exact hw b

/-! ### SYS -/

/-- SYS with a selector that is not recognised. -/
theorem execSys_of_undefined {src : Src} {s : State} (h : s.selectorClass (s.srcVal src) = .undefined) :
    execSys src s = .next (s.advance.raise s.pc .undefinedSystemCall) := by simp only [execSys, h]

/-- SYS with a selector that is recognised and not implemented. -/
theorem execSys_of_unsupported {src : Src} {s : State} (h : s.selectorClass (s.srcVal src) = .unsupported) :
    execSys src s = .next (s.advance.raise s.pc .unsupportedSystemCall) := by simp only [execSys, h]

/-- Everything SYS does with an implemented selector: with the memory its accesses leave, it faults at an address outside
memory or ends as the RTS says. -/
theorem execSys_of_implemented {src : Src} {s : State} (h : s.selectorClass (s.srcVal src) = .implemented) :
    ∃ m, ((∃ a, s.inRange a = false ∧
          execSys src s = .next ((s.advance.rtsDrawn.setMem m).raiseMem s.pc a)) ∨
        execSys src s = finishCall (s.rtsPerformance (s.srcVal src)).ending (s.advance.rtsDrawn.setMem m)) ∧
      (∀ k, (∀ a ∈ writtenAddrs (s.rtsPerformance (s.srcVal src)).accesses, k < 4 * a.toNat ∨ 4 * a.toNat + 4 ≤ k) →
        m.readByte s.cfg.memFill k = s.readByte k) ∧
      (s.mem.wf s.cfg.memFill → m.wf s.cfg.memFill) ∧ (s.mem.within s.cfg.memSize → m.within s.cfg.memSize) := by
  obtain ⟨m, hm, hrest⟩ := rtsAccesses_cases (s.rtsPerformance (s.srcVal src)).accesses s.advance.rtsDrawn
  refine ⟨m, ?_, hrest⟩
  rcases hm with hm | ⟨a, ha, hm⟩
  · exact .inr (by simp only [execSys, h, performCall, hm])
  · exact .inl ⟨a, ha, by simp only [execSys, h, performCall, hm]⟩

/-- SYS with an implemented selector whose accesses are all in memory. -/
theorem execSys_of_allInRange {src : Src} {s : State} {accesses : List RtsAccess} {ending : RtsEnding}
    (h : s.selectorClass (s.srcVal src) = .implemented) (hp : s.rtsPerformance (s.srcVal src) = ⟨accesses, ending⟩)
    (hin : s.allInRange accesses) :
    ∃ m, execSys src s = finishCall ending (s.advance.rtsDrawn.setMem m) ∧
      (∀ b, m.readWord s.cfg.memFill b = wordAfter accesses b (s.readWord b)) ∧
      ∀ k, (∀ a ∈ writtenAddrs accesses, k < 4 * a.toNat ∨ 4 * a.toNat + 4 ≤ k) → m.readByte s.cfg.memFill k = s.readByte k := by
  obtain ⟨m, hm, hw, hb⟩ := rtsAccesses_finishes accesses s.advance.rtsDrawn hin
  exact ⟨m, by simp only [execSys, h, performCall, hp, hm], hw, hb⟩

/-! ### The step -/

theorem fetch_of_inRange {s : State} (h : s.inRange s.pc = true) : s.fetch = some (s.readWord s.pc.toNat) :=
  memRead_of_inRange h

/-- What a step of a running machine can do: take the fetch's fault, take the illegal-instruction fault, or run the meaning of
the decoded instruction. -/
theorem step_running_cases {s : State} (h : s.status = .running) :
    (s.inRange s.pc = false ∧ s.currentInstr = none ∧ step s = .next (s.raiseMem s.pc s.pc)) ∨
    (∃ w why, s.fetch = some w ∧ decode s.cfg.opc s.cfg.raDecode w = .illegal why ∧ s.currentInstr = none ∧
      step s = .next (s.advance.raise s.pc .illegalInstruction)) ∨
    ∃ w i, s.fetch = some w ∧ decode s.cfg.opc s.cfg.raDecode w = .instr i ∧ s.currentInstr = some i ∧ step s = exec i s := by
  by_cases hp : s.inRange s.pc = true
  · right
    have hf := fetch_of_inRange hp
    cases hd : decode s.cfg.opc s.cfg.raDecode (s.readWord s.pc.toNat) with
    | illegal why => exact .inl ⟨_, why, hf, hd, by simp [State.currentInstr, hf, hd], by simp [step, h, hf, hd]⟩
    | instr i => exact .inr ⟨_, i, hf, hd, by simp [State.currentInstr, hf, hd], by simp [step, h, hf, hd]⟩
  · left
    have hp : s.inRange s.pc = false := by simpa using hp
    have hf : s.fetch = none := memRead_of_not_inRange hp
    exact ⟨hp, by simp [State.currentInstr, hf], by simp [step, h, hf]⟩

/-- A step that answers a next state starts from a running machine. -/
theorem running_of_step {s t : State} (h : step s = .next t) : s.status = .running := by
  unfold step at h
  split at h
  · assumption
  all_goals simp at h

end Sys2Proof.Machine
end

