-- ==== Sys2Proof/Laws/PerInstr.lean ====
section
/-! SUPPORT. A property of every instruction, one lemma per constructor: the encoder puts the fixed bits of the instruction's row
of spec/opcode_table.json where the row has them. -/

namespace Sys2Proof.Laws.FixedBits

/-- The mask of the instruction's row. -/
def rowMask : Instr → Word
  | .mov _ _ => 0xFF000000#32
  | .add _ _ => 0xFF000000#32
  | .sub _ _ => 0xFF000000#32
  | .mul _ _ => 0xFF000000#32
  | .div _ _ => 0xFF000000#32
  | .mod _ _ => 0xFF000000#32
  | .and _ _ => 0xFF000000#32
  | .or _ _ => 0xFF000000#32
  | .shl _ _ => 0xFF000000#32
  | .shr _ _ => 0xFF000000#32
  | .cmp _ _ => 0xFF000000#32
  | .push _ => 0xFF000000#32
  | .pop _ => 0xFF000000#32
  | .jmpR _ => 0xFF000000#32
  | .callR _ => 0xFF000000#32
  | .ret => 0xFF000000#32
  | .sys _ => 0xFF000000#32
  | .halt => 0xFF000000#32
  | .movLd _ _ _ => 0xFF000000#32
  | .movSt _ _ _ => 0xFF000000#32
  | .ladM _ _ _ => 0xFF000000#32
  | .ladA _ => 0xF0000000#32
  | .jmpA _ => 0xF0000000#32
  | .callA _ => 0xF0000000#32
  | .movLda _ => 0xF0000000#32
  | .movSta _ => 0xF0000000#32
  | .beq _ => 0xFF000000#32
  | .bne _ => 0xFF000000#32
  | .blt _ => 0xFF000000#32
  | .ble _ => 0xFF000000#32
  | .bgt _ => 0xFF000000#32
  | .bge _ => 0xFF000000#32

/-- The fixed bits of the instruction's row. -/
def rowMatch : Instr → Word
  | .mov _ _ => 0x01000000#32
  | .add _ _ => 0x02000000#32
  | .sub _ _ => 0x03000000#32
  | .mul _ _ => 0x04000000#32
  | .div _ _ => 0x05000000#32
  | .mod _ _ => 0x06000000#32
  | .and _ _ => 0x07000000#32
  | .or _ _ => 0x08000000#32
  | .shl _ _ => 0x09000000#32
  | .shr _ _ => 0x0A000000#32
  | .cmp _ _ => 0x0B000000#32
  | .push _ => 0x10000000#32
  | .pop _ => 0x11000000#32
  | .jmpR _ => 0x12000000#32
  | .callR _ => 0x13000000#32
  | .ret => 0x14000000#32
  | .sys _ => 0x15000000#32
  | .halt => 0x16000000#32
  | .movLd _ _ _ => 0x20000000#32
  | .movSt _ _ _ => 0x21000000#32
  | .ladM _ _ _ => 0x22000000#32
  | .ladA _ => 0x80000000#32
  | .jmpA _ => 0x90000000#32
  | .callA _ => 0xA0000000#32
  | .movLda _ => 0xB0000000#32
  | .movSta _ => 0xC0000000#32
  | .beq _ => 0xF0000000#32
  | .bne _ => 0xF1000000#32
  | .blt _ => 0xF2000000#32
  | .ble _ => 0xF3000000#32
  | .bgt _ => 0xF4000000#32
  | .bge _ => 0xF5000000#32

/-- Under the mask of its row, the encoding of an instruction is the row's fixed bits (30_encoding.md R61 to R64, R67). -/
def Statement (i : Instr) : Prop := encode .standard .flagField i &&& rowMask i = rowMatch i

theorem mov (rb : Reg) (src : Src) : Statement (.mov rb src) := rWord_and_opbMask _ _ _

theorem add (rb : Reg) (src : Src) : Statement (.add rb src) := rWord_and_opbMask _ _ _

theorem sub (rb : Reg) (src : Src) : Statement (.sub rb src) := rWord_and_opbMask _ _ _

theorem mul (rb : Reg) (src : Src) : Statement (.mul rb src) := rWord_and_opbMask _ _ _

theorem div (rb : Reg) (src : Src) : Statement (.div rb src) := rWord_and_opbMask _ _ _

theorem mod (rb : Reg) (src : Src) : Statement (.mod rb src) := rWord_and_opbMask _ _ _

theorem and (rb : Reg) (src : Src) : Statement (.and rb src) := rWord_and_opbMask _ _ _

theorem or (rb : Reg) (src : Src) : Statement (.or rb src) := rWord_and_opbMask _ _ _

theorem shl (rb : Reg) (src : Src) : Statement (.shl rb src) := rWord_and_opbMask _ _ _

theorem shr (rb : Reg) (src : Src) : Statement (.shr rb src) := rWord_and_opbMask _ _ _

theorem cmp (rb : Reg) (src : Src) : Statement (.cmp rb src) := rWord_and_opbMask _ _ _

theorem push (src : Src) : Statement (.push src) := rWord_and_opbMask _ _ _

theorem pop (rb : Reg) : Statement (.pop rb) := rWord_and_opbMask _ _ _

theorem jmpR (src : Src) : Statement (.jmpR src) := rWord_and_opbMask _ _ _

theorem callR (src : Src) : Statement (.callR src) := rWord_and_opbMask _ _ _

theorem ret : Statement .ret := rWord_and_opbMask _ _ _

theorem sys (src : Src) : Statement (.sys src) := rWord_and_opbMask _ _ _

theorem halt : Statement .halt := rWord_and_opbMask _ _ _

theorem movLd (rd base : Reg) (offset : Word) : Statement (.movLd rd base offset) := mWord_and_opbMask _ _ _ _

theorem movSt (rd base : Reg) (offset : Word) : Statement (.movSt rd base offset) := mWord_and_opbMask _ _ _ _

theorem ladM (rd base : Reg) (offset : Word) : Statement (.ladM rd base offset) := mWord_and_opbMask _ _ _ _

theorem ladA (target : Word) : Statement (.ladA target) := aWord_and_nibMask _ _

theorem jmpA (target : Word) : Statement (.jmpA target) := aWord_and_nibMask _ _

theorem callA (target : Word) : Statement (.callA target) := aWord_and_nibMask _ _

theorem movLda (target : Word) : Statement (.movLda target) := aWord_and_nibMask _ _

theorem movSta (target : Word) : Statement (.movSta target) := aWord_and_nibMask _ _

theorem beq (offset : Word) : Statement (.beq offset) := bWord_and_opbMask _ _

theorem bne (offset : Word) : Statement (.bne offset) := bWord_and_opbMask _ _

theorem blt (offset : Word) : Statement (.blt offset) := bWord_and_opbMask _ _

theorem ble (offset : Word) : Statement (.ble offset) := bWord_and_opbMask _ _

theorem bgt (offset : Word) : Statement (.bgt offset) := bWord_and_opbMask _ _

theorem bge (offset : Word) : Statement (.bge offset) := bWord_and_opbMask _ _

end Sys2Proof.Laws.FixedBits
end

