-- ==== Sys2Proof/Laws/Word.lean ====
section
/-! SUPPORT. `wrap32` is the reduction modulo 2^32 that word arithmetic computes. -/

namespace Sys2Proof

@[simp] theorem wrap32_toNat (v : Word) : wrap32 (v.toNat : Int) = v := by simp [wrap32]

@[simp] theorem wrap32_toInt (v : Word) : wrap32 v.toInt = v := by simp [wrap32]

theorem wrap32_natCast (n : Nat) : wrap32 (n : Int) = BitVec.ofNat 32 n := by simp [wrap32]

theorem wrap32_add (m n : Int) : wrap32 (m + n) = wrap32 m + wrap32 n := BitVec.ofInt_add m n

theorem wrap32_mul (m n : Int) : wrap32 (m * n) = wrap32 m * wrap32 n := BitVec.ofInt_mul m n

theorem wrap32_sub (m n : Int) : wrap32 (m - n) = wrap32 m - wrap32 n := by
  rw [eq_comm, sub_eq_iff_eq_add, ← wrap32_add, Int.sub_add_cancel]

end Sys2Proof
end

