-- ==== Sys2Proof/Tests/Slice0.lean ====
section
/-! SUPPORT. The model's own tests: ill-formed terms, one decoded word per instruction, one step per vector, and for every
obligation with hypotheses a state and operands that meet them. Expected values are those of 95_test_vectors.md (parts 2 to 8
and the table S2) unless a comment says that they were computed by hand. -/

namespace Sys2Proof.Tests

open Sys2Proof Sys2Proof.Machine

-- One theorem after another: many kernel evaluations at once need more threads than the memory limit allows.
set_option Elab.async false

/-! ### Helpers -/

/-- The machine of the single-instruction vectors: MEMSIZE 64, the word `w` at address `ia`, memory zero but for the listed
words, selectors 1, 3 and 4 implemented and 2 unsupported. -/
def start (ia w x0 x1 x2 x3 : Nat) (words : List (Nat × Nat)) : State :=
  { State.reset with
    sp := BitVec.ofNat 32 x0
    fp := BitVec.ofNat 32 x1
    acc := BitVec.ofNat 32 x2
    sec := BitVec.ofNat 32 x3
    pc := BitVec.ofNat 32 ia
    mem := ((ia, w) :: words).foldl (fun m c => Memory.writeWord 0#32 m c.1 (BitVec.ofNat 32 c.2)) []
    cfg := Config.standard 64 0 [] (.listed [1#32, 3#32, 4#32] [2#32]) }

/-- The same machine with the answer the RTS will give. -/
def answering (p : RtsPerformance) (s : State) : State := { s with rtsScript := [p] }

/-- The next state, if there is one. -/
def after (o : Host.Outcome State Fault Refusal) : Option State :=
  match o with
  | .next t => some t
  | .fault _ => none
  | .refused _ => none

/-- An outcome whose next state has a property that evaluates to true has a next state with it. -/
theorem exists_next {o : Host.Outcome State Fault Refusal} (p : State → Prop) [DecidablePred p]
    (h : (match after o with | some t => decide (p t) | none => false) = true) : ∃ t, o = .next t ∧ p t := by
  cases o with
  | next t => exact ⟨t, rfl, of_decide_eq_true h⟩
  | fault _ => cases h
  | refused _ => cases h

/-- The machine under no DIV_LAW and no SHIFT_LAW. -/
def lawless (s : State) : State := { s with cfg := { s.cfg with divLaw := .unstated, shiftLaw := .unstated } }

/-- What a test reads from the state after one step. -/
def stepped {α : Type} (s : State) (f : State → α) : Option α := (after (step s)).map f

/-! ### Well-formedness: each check refuses an ill-formed term -/

theorem test_wf_refuses_register_3_as_source : (Instr.mov .acc (.reg .sec)).wf .flagField = false := by decide

theorem test_wf_refuses_literal_above : (Instr.add .sp (.imm 524288#32)).wf .flagField = false := by decide

theorem test_wf_refuses_literal_below : (Instr.push (.imm (wrap32 (-524289)))).wf .flagField = false := by decide

theorem test_wf_refuses_offset_above : (Instr.movSt .acc .sec 524288#32).wf .flagField = false := by decide

theorem test_wf_refuses_address_above : (Instr.callA 0x10000000#32).wf .flagField = false := by decide

theorem test_wf_refuses_displacement_above : (Instr.bge 8388608#32).wf .flagField = false := by decide

theorem test_wf_refuses_displacement_below : (Instr.beq (wrap32 (-8388609))).wf .flagField = false := by decide

/-! ### Decoding: one word per instruction (95_test_vectors.md part 2; MUL, MOD, AND, SHL, SHR, OR and SUB from part 5) -/

theorem test_decode_mov : decode .standard .flagField 0x01B00007#32 = .instr (.mov .acc (.imm 7#32)) := by decide

theorem test_decode_add : decode .standard .flagField 0x02300003#32 = .instr (.add .sp (.imm 3#32)) := by decide

theorem test_decode_sub : decode .standard .flagField 0x03300002#32 = .instr (.sub .sp (.imm 2#32)) := by decide

theorem test_decode_mul : decode .standard .flagField 0x04900000#32 = .instr (.mul .acc (.reg .fp)) := by decide

theorem test_decode_div : decode .standard .flagField 0x05BFFC18#32 = .instr (.div .acc (.imm (wrap32 (-1000)))) := by decide

theorem test_decode_mod : decode .standard .flagField 0x06F003E8#32 = .instr (.mod .sec (.imm 1000#32)) := by decide

theorem test_decode_and : decode .standard .flagField 0x07BFFF00#32 = .instr (.and .acc (.imm (wrap32 (-256)))) := by decide

theorem test_decode_or : decode .standard .flagField 0x08E00000#32 = .instr (.or .sec (.reg .acc)) := by decide

theorem test_decode_shl : decode .standard .flagField 0x09B00008#32 = .instr (.shl .acc (.imm 8#32)) := by decide

theorem test_decode_shr : decode .standard .flagField 0x0A900000#32 = .instr (.shr .acc (.reg .fp)) := by decide

theorem test_decode_cmp : decode .standard .flagField 0x0BF00002#32 = .instr (.cmp .sec (.imm 2#32)) := by decide

theorem test_decode_push : decode .standard .flagField 0x10E00000#32 = .instr (.push (.reg .acc)) := by decide

theorem test_decode_pop : decode .standard .flagField 0x1173FFFF#32 = .instr (.pop .fp) := by decide

theorem test_decode_jmpR : decode .standard .flagField 0x12200000#32 = .instr (.jmpR (.reg .acc)) := by decide

theorem test_decode_callR : decode .standard .flagField 0x133FFFFC#32 = .instr (.callR (.imm (wrap32 (-4)))) := by decide

theorem test_decode_ret : decode .standard .flagField 0x14ABCDEF#32 = .instr .ret := by decide

theorem test_decode_sys : decode .standard .flagField 0x15300001#32 = .instr (.sys (.imm 1#32)) := by decide

theorem test_decode_halt : decode .standard .flagField 0x16FFFFFF#32 = .instr .halt := by decide

theorem test_decode_movLd : decode .standard .flagField 0x20900003#32 = .instr (.movLd .acc .fp 3#32) := by decide

theorem test_decode_movSt : decode .standard .flagField 0x21C00000#32 = .instr (.movSt .sec .sp 0#32) := by decide

theorem test_decode_ladM : decode .standard .flagField 0x229FFFFE#32 = .instr (.ladM .acc .fp (wrap32 (-2))) := by decide

theorem test_decode_ladA : decode .standard .flagField 0x8FFFFFFF#32 = .instr (.ladA 0x0FFFFFFF#32) := by decide

theorem test_decode_jmpA : decode .standard .flagField 0x90000002#32 = .instr (.jmpA 2#32) := by decide

theorem test_decode_callA : decode .standard .flagField 0xA0000006#32 = .instr (.callA 6#32) := by decide

theorem test_decode_movLda : decode .standard .flagField 0xB000000F#32 = .instr (.movLda 15#32) := by decide

theorem test_decode_movSta : decode .standard .flagField 0xC0000014#32 = .instr (.movSta 20#32) := by decide

theorem test_decode_beq : decode .standard .flagField 0xF0000007#32 = .instr (.beq 7#32) := by decide

theorem test_decode_bne : decode .standard .flagField 0xF1FFFFFD#32 = .instr (.bne (wrap32 (-3))) := by decide

theorem test_decode_blt : decode .standard .flagField 0xF2000001#32 = .instr (.blt 1#32) := by decide

theorem test_decode_ble : decode .standard .flagField 0xF3000002#32 = .instr (.ble 2#32) := by decide

theorem test_decode_bgt : decode .standard .flagField 0xF4000002#32 = .instr (.bgt 2#32) := by decide

theorem test_decode_bge : decode .standard .flagField 0xF5FFFFFF#32 = .instr (.bge (wrap32 (-1))) := by decide

theorem test_decode_flag_3_is_immediate : decode .standard .flagField 0x01B00000#32 = .instr (.mov .acc (.imm 0#32)) := by decide

/-- The first and the last illegal opcode byte of each group (table S4). -/
theorem test_decode_illegal :
    [0x00000000#32, 0x0C000000#32, 0x0F123456#32, 0x17000000#32, 0x1F000000#32, 0x23000000#32, 0x7FFFFFFF#32, 0xD0000000#32,
      0xE1234567#32, 0xF6000000#32, 0xFFFFFFFF#32].all (fun w =>
        (match decode .standard .flagField w with | .illegal _ => true | .instr _ => false)) = true := by decide

/-! ### One step: arithmetic and logic (part 5) -/

theorem test_mov_negative :
    stepped (start 0 0x01BFFFFD 0 0 0 0 []) (fun t => (t.acc, t.pc)) =
      some (0xFFFFFFFD#32, 1#32) := by decide +kernel

theorem test_mov_ignores_low_bits :
    stepped (start 0 0x01A12345 0 0 9 0 []) (fun t => (t.acc, t.pc)) =
      some (9#32, 1#32) := by decide +kernel

theorem test_add_wraps_signed :
    stepped (start 0 0x02900000 0 0x7FFFFFFF 1 0 []) (fun t => (t.acc, t.pc)) =
      some (0x80000000#32, 1#32) := by decide +kernel

theorem test_add_source_is_destination :
    stepped (start 0 0x02A00000 0 0 0x80000001 0 []) (fun t => (t.acc, t.pc)) =
      some (2#32, 1#32) := by decide +kernel

theorem test_sub_wraps :
    stepped (start 0 0x03B00001 0 0 0x80000000 0 []) (fun t => (t.acc, t.pc)) =
      some (0x7FFFFFFF#32, 1#32) := by decide +kernel

theorem test_sub_other_register :
    stepped (start 0 0x03300002 0x3A 0 0 0 []) (fun t => (t.sp, t.pc)) =
      some (0x38#32, 1#32) := by decide +kernel

theorem test_mul_wraps :
    stepped (start 0 0x04900000 0 0xFFFFFFFF 0x80000000 0 []) (fun t => (t.acc, t.pc)) =
      some (0x80000000#32, 1#32) := by decide +kernel

theorem test_mul_high_half_lost :
    stepped (start 0 0x04A00000 0 0 0x10000 0 []) (fun t => (t.acc, t.pc)) =
      some (0#32, 1#32) := by decide +kernel

theorem test_div_toward_zero :
    stepped (start 0 0x05900000 0 2 0xFFFFFFF9 0 []) (fun t => (t.acc, t.pc)) =
      some (0xFFFFFFFD#32, 1#32) := by decide +kernel

theorem test_mod_sign_of_dividend :
    stepped (start 0 0x06900000 0 2 0xFFFFFFF9 0 []) (fun t => (t.acc, t.pc)) =
      some (0xFFFFFFFF#32, 1#32) := by decide +kernel

theorem test_div_by_zero :
    stepped (start 5 0x05B00000 1 2 7 4 []) (fun t => (t.status, t.pc, t.acc, t.trap)) =
      some (.fault .divisionByZero, 5#32, 7#32, none) := by decide +kernel

/-- With the word of part 2 for `MOD A, FP` and a zero register, as in part 5 for DIV. -/
theorem test_mod_by_zero_register :
    stepped (start 5 0x06900000 5 0 9 9 []) (fun t => (t.status, t.pc, t.acc, t.trap)) =
      some (.fault .divisionByZero, 5#32, 9#32, none) := by decide +kernel

theorem test_and_extended_literal :
    stepped (start 0 0x07BFFF00 0 0 0x12345678 0 []) (fun t => (t.acc, t.pc)) =
      some (0x12345600#32, 1#32) := by decide +kernel

theorem test_and_literal :
    stepped (start 0 0x07B000FF 0 0 0x12345678 0 []) (fun t => (t.acc, t.pc)) =
      some (0x78#32, 1#32) := by decide +kernel

theorem test_or_registers :
    stepped (start 0 0x08E00000 0 0 0x0F0F0000 0x0000F0F0 []) (fun t => (t.sec, t.pc)) =
      some (0x0F0FF0F0#32, 1#32) := by decide +kernel

theorem test_or_literal :
    stepped (start 0 0x08B00078 0 0 0x12345600 0 []) (fun t => (t.acc, t.pc)) =
      some (0x12345678#32, 1#32) := by decide +kernel

theorem test_shl_count_32 :
    stepped (start 0 0x09B00020 0 0 0x12345678 0 []) (fun t => (t.acc, t.pc)) =
      some (0x12345678#32, 1#32) := by decide +kernel

theorem test_shl_count_minus_1 :
    stepped (start 0 0x09BFFFFF 0 0 1 0 []) (fun t => (t.acc, t.pc)) =
      some (0x80000000#32, 1#32) := by decide +kernel

theorem test_shr_fills_zero :
    stepped (start 0 0x0AB0001F 0 0 0x80000000 0 []) (fun t => (t.acc, t.pc)) =
      some (1#32, 1#32) := by decide +kernel

theorem test_shr_count_36 :
    stepped (start 0 0x0A900000 0 36 0x80000000 0 []) (fun t => (t.acc, t.pc)) =
      some (0x08000000#32, 1#32) := by decide +kernel

theorem test_cmp_is_signed :
    stepped (start 0 0x0BB00001 0 0 0x80000000 0 []) (fun t => (t.acc, t.pc)) =
      some (0xFFFFFFFF#32, 1#32) := by decide +kernel

theorem test_cmp_no_overflow :
    stepped (start 0 0x0B900000 0 0x80000000 0x7FFFFFFF 0 []) (fun t => (t.acc, t.pc)) =
      some (1#32, 1#32) := by decide +kernel

theorem test_ladA_not_extended :
    stepped (start 0 0x8FFFFFFF 0 0 0 0 []) (fun t => (t.acc, t.pc)) =
      some (0x0FFFFFFF#32, 1#32) := by decide +kernel

theorem test_ladM_any_register :
    stepped (start 0 0x22B00000 0 0 0 0x77 []) (fun t => (t.acc, t.pc)) =
      some (0x77#32, 1#32) := by decide +kernel

theorem test_ladM_wraps :
    stepped (start 0 0x22F7FFFF 0 0 0 0xFFF80001 []) (fun t => (t.sec, t.pc)) =
      some (0#32, 1#32) := by decide +kernel

/-! ### One step: stack (part 6) -/

theorem test_push_reads_first :
    stepped (start 0 0x10000000 0x3E 0 0 0 []) (fun t => (t.readWord 0x3E, t.sp)) =
      some (0x3E#32, 0x3D#32) := by decide +kernel

theorem test_push_out_of_range :
    stepped (start 1 0x10300009 0x40 0 0 0 []) (fun t => (t.status, t.trap, t.pc, t.sp)) =
      some (.fault .illegalMemoryAccess, some 0x40#32, 1#32, 0x40#32) := by decide +kernel

theorem test_pop_into_stack_pointer :
    stepped (start 0 0x11000000 0x3D 0 0 0 [(0x3E, 0x30)]) (fun t => (t.sp, t.pc)) =
      some (0x30#32, 1#32) := by decide +kernel

theorem test_pop_address_wraps :
    stepped (start 1 0x11800000 0xFFFFFFFF 0 7 0 []) (fun t => (t.acc, t.sp, t.status)) =
      some (0#32, 0#32, .running) := by decide +kernel

/-! ### One step: load and store (part 7) -/

theorem test_movLd_destination_is_base :
    stepped (start 0 0x20F00000 0 0 0 0x14 [(0x14, 0x15)]) (fun t => (t.sec, t.pc)) =
      some (0x15#32, 1#32) := by decide +kernel

theorem test_movLd_trap_address :
    stepped (start 0 0x208FFFFF 0 0 0 0 []) (fun t => (t.status, t.trap, t.pc)) =
      some (.fault .illegalMemoryAccess, some 0xFFFFFFFF#32, 0#32) := by decide +kernel

theorem test_movSt_stores_first_field :
    stepped (start 0 0x21C00000 0x3A 0 0 0x77 []) (fun t => (t.readWord 0x3A, t.sp)) =
      some (0x77#32, 0x3A#32) := by decide +kernel

theorem test_movSt_trap_address :
    stepped (start 0 0x21BFFFFF 0 0 9 0xFFFFFFFF []) (fun t => (t.trap, t.status)) =
      some (some 0xFFFFFFFE#32, .fault .illegalMemoryAccess) := by decide +kernel

theorem test_movLda_loads :
    stepped (start 0 0xB000000F 0 0 0 0 [(0xF, 0x37)]) (fun t => (t.acc, t.pc)) =
      some (0x37#32, 1#32) := by decide +kernel

theorem test_movLda_first_address_outside :
    stepped (start 0 0xB0000040 0 0 5 0 []) (fun t => (t.trap, t.acc)) =
      some (some 0x40#32, 5#32) := by decide +kernel

theorem test_movSta_stores :
    stepped (start 0 0xC0000014 0 0 0x12345678 0 []) (fun t => (t.readWord 0x14, t.pc)) =
      some (0x12345678#32, 1#32) := by decide +kernel

theorem test_movSta_first_address_outside :
    stepped (start 0 0xC0000040 0 0 0 0 []) (fun t => (t.trap, t.pc)) =
      some (some 0x40#32, 0#32) := by decide +kernel

/-! ### One step: control transfer (part 4) -/

theorem test_jmpA_outside_is_no_fault :
    stepped (start 5 0x90000040 0 0 0 0 []) (fun t => (t.pc, t.status)) =
      some (0x40#32, .running) := by decide +kernel

theorem test_jmpR_immediate :
    stepped (start 0 0x123FFFFF 0 0 0 0 []) (fun t => (t.pc, t.status)) =
      some (0xFFFFFFFF#32, .running) := by decide +kernel

theorem test_callA_frame :
    stepped (start 3 0xA0000006 0x3C 0x3F 0 0 []) (fun t => (t.readWord 0x3C, t.readWord 0x3B, t.sp, t.fp, t.pc)) =
      some (0x3F#32, 4#32, 0x3A#32, 0x3B#32, 6#32) := by decide +kernel

theorem test_callA_partial_effect :
    stepped (start 3 0xA0000006 0 0x3F 0 0 []) (fun t => (t.readWord 0, t.trap, t.pc, t.sp, t.fp)) =
      some (0x3F#32, some 0xFFFFFFFF#32, 3#32, 0xFFFFFFFF#32, 0xFFFFFFFF#32) := by decide +kernel

theorem test_callR_reads_target_first :
    stepped (start 3 0x13000000 0x3C 0x3F 0 0 []) (fun t => (t.pc, t.sp, t.fp)) =
      some (0x3C#32, 0x3A#32, 0x3B#32) := by decide +kernel

theorem test_ret_restores :
    stepped (start 10 0x14000000 0x32 0x3B 0 0 [(0x3B, 4), (0x3C, 0x3F)]) (fun t => (t.pc, t.sp, t.fp)) =
      some (4#32, 0x3C#32, 0x3F#32) := by decide +kernel

theorem test_ret_partial_effect :
    stepped (start 10 0x14000000 0x3F 0x3F 0 0 [(0x3F, 0x1234)]) (fun t => (t.pc, t.trap, t.sp, t.fp)) =
      some (0xA#32, some 0x40#32, 0x40#32, 0x3F#32) := by decide +kernel

theorem test_beq_taken :
    stepped (start 3 0xF0000007 0 0 0 0 []) (fun t => (t.pc, t.acc)) =
      some (0xB#32, 0#32) := by decide +kernel

theorem test_beq_not_taken :
    stepped (start 3 0xF0000007 0 0 5 0 []) (fun t => (t.pc, t.acc)) =
      some (4#32, 5#32) := by decide +kernel

theorem test_bne_taken :
    stepped (start 10 0xF1FFFFFD 0 0 1 0 []) (fun t => (t.pc, t.acc)) =
      some (8#32, 1#32) := by decide +kernel

theorem test_bne_not_taken :
    stepped (start 10 0xF1FFFFFD 0 0 0 0 []) (fun t => (t.pc, t.acc)) =
      some (0xB#32, 0#32) := by decide +kernel

theorem test_blt_taken :
    stepped (start 9 0xF2000001 0 0 0xFFFFFFFF 0 []) (fun t => (t.pc, t.acc)) =
      some (0xB#32, 0xFFFFFFFF#32) := by decide +kernel

theorem test_blt_not_taken :
    stepped (start 9 0xF2000001 0 0 0 0 []) (fun t => (t.pc, t.acc)) =
      some (0xA#32, 0#32) := by decide +kernel

theorem test_ble_taken :
    stepped (start 0 0xF3000002 0 0 0 0 []) (fun t => (t.pc, t.acc)) =
      some (3#32, 0#32) := by decide +kernel

theorem test_ble_not_taken :
    stepped (start 0 0xF3000002 0 0 1 0 []) (fun t => (t.pc, t.acc)) =
      some (1#32, 1#32) := by decide +kernel

theorem test_bgt_taken :
    stepped (start 0 0xF4000002 0 0 1 0 []) (fun t => (t.pc, t.acc)) =
      some (3#32, 1#32) := by decide +kernel

theorem test_bgt_not_taken :
    stepped (start 0 0xF4000002 0 0 0x80000000 0 []) (fun t => (t.pc, t.acc)) =
      some (1#32, 0x80000000#32) := by decide +kernel

theorem test_bge_taken :
    stepped (start 7 0xF5FFFFFF 0 0 0 0 []) (fun t => (t.pc, t.acc)) =
      some (7#32, 0#32) := by decide +kernel

theorem test_bge_not_taken :
    stepped (start 7 0xF5FFFFFF 0 0 0xFFFFFFFF 0 []) (fun t => (t.pc, t.acc)) =
      some (8#32, 0xFFFFFFFF#32) := by decide +kernel

/-! ### One step: system (part 8) and fetch (part 3) -/

/-- `SYS #4` of part 8: the RTS reads the buffer address at p + 3 and writes 0x41 there. -/
theorem test_sys_writes_and_returns :
    stepped (answering ⟨[.read 0x17#32, .write 0x28#32 0x41#32], .ret 1#32⟩ (start 0 0x15300004 0x14 0x14 0 0 [(0x17, 0x28)]))
      (fun t => (t.readWord 0x28, t.acc, t.pc, t.rtsScript)) = some (0x41#32, 1#32, 1#32, []) := by decide +kernel

/-- `SYS #4` with a bad buffer. -/
theorem test_sys_bad_buffer :
    stepped (answering ⟨[.read 0x17#32, .write 0x100#32 0x41#32], .ret 1#32⟩ (start 0 0x15300004 0x14 0x14 5 0 [(0x17, 0x100)]))
      (fun t => (t.status, t.trap, t.pc, t.acc)) =
        some (.fault .illegalMemoryAccess, some 0x100#32, 0#32, 5#32) := by decide +kernel

theorem test_halt_keeps_all_32_bits :
    stepped (start 0 0x16FFFFFF 0 0 0x80000000 0 []) (fun t => (t.status, t.pc)) =
      some (.halted 0x80000000#32, 1#32) := by decide +kernel

theorem test_illegal_word :
    stepped (start 9 0x7FFFFFFF 1 2 3 4 []) (fun t => (t.status, t.pc, t.trap)) =
      some (.fault .illegalInstruction, 9#32, none) := by decide +kernel

theorem test_fetch_outside_memory :
    stepped (start 0x40 0 0 0 0 0 []) (fun t => (t.status, t.pc, t.trap)) =
      some (.fault .illegalMemoryAccess, 0x40#32, some 0x40#32) := by decide +kernel

/-! ### The host's entry: a table row's bits reach the decoder and the first step after reset -/

theorem test_decodeTableWord : decodeTableWord 32 0x20900003 = some (.movLd .acc .fp 3#32) := by decide +kernel

theorem test_withFetchWord :
    stepped (State.reset.withFetchWord 32 0x01B00007) (fun t => (t.acc, t.pc)) = some (7#32, 1#32) := by decide +kernel

/-- Memory keeps one canonical form: writing zeros back removes the cells. -/
theorem test_memory_canonical :
    Memory.writeWord 0#32 (Memory.writeWord 0#32 (Memory.writeWord 0#32 [] 5 0x01000002#32) 4 3#32) 5 0#32 = [(16, 3#8)] := by
  decide +kernel

/-- A `MEM_FILL` that is not zero: an unlisted word reads as all of it, and writing it back removes the cells. -/
theorem test_memory_fill :
    Memory.readWord 0x12345678#32 [] 9 = 0x12345678#32 ∧
    Memory.writeWord 0x12345678#32 (Memory.writeWord 0x12345678#32 [] 9 0x12FF5678#32) 9 0x12345678#32 = [] := by decide +kernel

/-- The other reading of the source register (92_eei_decisions.md D3): register 3 is a source, the flag still decides. -/
theorem test_decode_belowFlag :
    decode .standard .belowFlag 0x01AFFFFF#32 = .instr (.mov .acc (.reg .sec)) ∧
    decode .standard .belowFlag 0x01BFFFFD#32 = .instr (.mov .acc (.imm (wrap32 (-3)))) := by decide

/-! ### Witnesses: for every obligation with hypotheses, a state and operands that meet them all -/

/-- Every operand field at the ends of its range. -/
theorem witness_DecodeEncodeRoundTrip :
    [Instr.mov .sec (.reg .acc), .add .sp (.imm (wrap32 (-524288))), .push (.imm 524287#32), .pop .sec, .ret,
      .movLd .sec .sec (wrap32 (-524288)), .movSt .acc .sp 524287#32, .ladA 0#32, .callA 0x0FFFFFFF#32,
      .beq (wrap32 (-8388608)), .bge 8388607#32].all (Instr.wf .flagField) = true ∧ OpcodeTable.standard.ok = true ∧
    (Instr.mov .sec (.reg .sec)).wf .belowFlag = true := by decide

theorem witness_DecodedInstructionsAreWellFormed :
    decode .standard .flagField 0x21BFFFFF#32 = .instr (.movSt .acc .sec (wrap32 (-1))) := by decide

/-- Two words that differ, for each clause, the first one under each reading of the source register. -/
theorem witness_UnusedBitsAreIgnored :
    let o := OpcodeTable.standard
    o.ok = true ∧
    (opbField 0x01A00000#32 = opbField 0x01A12345#32 ∧ opbField 0x01A00000#32 ∈ o.rNumbers ∧
      rbField 0x01A00000#32 = rbField 0x01A12345#32 ∧ raField 0x01A00000#32 ≠ 3#2 ∧ raField 0x01A12345#32 ≠ 3#2 ∧
      raField 0x01A00000#32 = raField 0x01A12345#32) ∧
    (opbField 0x018C0000#32 = opbField 0x01AFFFFF#32 ∧ rbField 0x018C0000#32 = rbField 0x01AFFFFF#32 ∧
      raField 0x018C0000#32 ≠ 3#2 ∧ raField 0x01AFFFFF#32 ≠ 3#2 ∧ lowRaField 0x018C0000#32 = lowRaField 0x01AFFFFF#32) ∧
    (opbField 0x10300004#32 ∈ [o.push, o.jmpR, o.callR, o.sys] ∧ opbField 0x10300004#32 = opbField 0x10F00004#32 ∧
      raField 0x10300004#32 = raField 0x10F00004#32 ∧ litField 0x10300004#32 = litField 0x10F00004#32) ∧
    (opbField 0x11400000#32 = o.pop ∧ opbField 0x1173FFFF#32 = o.pop ∧ rbField 0x11400000#32 = rbField 0x1173FFFF#32) ∧
    (opbField 0x14ABCDEF#32 ∈ [o.ret, o.halt] ∧ opbField 0x14ABCDEF#32 = opbField 0x14000000#32 ∧
      opbField 0x16FFFFFF#32 ∈ [o.ret, o.halt] ∧ opbField 0x16FFFFFF#32 = opbField 0x16000000#32) := by decide

/-- The last address of memory. -/
theorem witness_StepRunsDecodedInstruction :
    (start 63 0x01B00007 0 0 0 0 []).status = .running ∧
    (start 63 0x01B00007 0 0 0 0 []).inRange (start 63 0x01B00007 0 0 0 0 []).pc = true ∧
    decode (start 63 0x01B00007 0 0 0 0 []).cfg.opc (start 63 0x01B00007 0 0 0 0 []).cfg.raDecode
      ((start 63 0x01B00007 0 0 0 0 []).readWord (start 63 0x01B00007 0 0 0 0 []).pc.toNat) =
      .instr (.mov .acc (.imm 7#32)) := by decide +kernel

/-- The first address outside memory. -/
theorem witness_FetchOutsideMemoryFaults :
    (start 64 0 0 0 0 0 []).status = .running ∧
    (start 64 0 0 0 0 0 []).cfg.memSize ≤ (start 64 0 0 0 0 0 []).pc.toNat := by decide +kernel

theorem witness_IllegalWordFaults :
    ((start 63 0xFFFFFFFF 0 0 0 0 []).status = .running ∧
      (start 63 0xFFFFFFFF 0 0 0 0 []).inRange (start 63 0xFFFFFFFF 0 0 0 0 []).pc = true ∧
      decode (start 63 0xFFFFFFFF 0 0 0 0 []).cfg.opc (start 63 0xFFFFFFFF 0 0 0 0 []).cfg.raDecode
        ((start 63 0xFFFFFFFF 0 0 0 0 []).readWord (start 63 0xFFFFFFFF 0 0 0 0 []).pc.toNat) =
        .illegal .conditionUnassigned) ∧
    opbField 0x7F000000#32 = opbField 0x7FFFFFFF#32 := by decide +kernel

theorem witness_EndedRunTakesNoStep :
    (State.reset.setStatus (.fault .divisionByZero)).status ≠ .running ∧
    Reaches (State.reset.setStatus (.fault .divisionByZero)) (State.reset.setStatus (.fault .divisionByZero)) :=
  ⟨by decide, .start⟩

theorem witness_RunningCoreHasNextState : State.reset.status = .running := rfl

/-- `MOV [S+0], A` at 3 stores the HALT word at 4, where the next fetch reads. -/
theorem witness_StoreIsSeenByNextFetch :
    ∃ t, exec (.movSt .acc .sec 0#32) (start 3 0 0 0 0x16000000 4 []) = .next t ∧ t.status = .running ∧
      t.pc = (start 3 0 0 0 0x16000000 4 []).effAddr .sec 0#32 ∧
      decode (start 3 0 0 0 0x16000000 4 []).cfg.opc (start 3 0 0 0 0x16000000 4 []).cfg.raDecode
        ((start 3 0 0 0 0x16000000 4 []).reg .acc) = .instr .halt :=
  exists_next _ (by decide +kernel)

/-- The bounds at their ends: one word of memory filled by the image, and an image one word too long. -/
theorem witness_LoadFillsMemory :
    let c := Config.standard 1 1 [7#32] .unstated
    let d := Config.standard 1 1 [7#32, 8#32] .unstated
    (1 ≤ c.memSize ∧ c.memSize ≤ 2 ^ 28 ∧ c.dataStart ≤ c.memSize ∧ c.image.length ≤ c.memSize ∧ c.opc.ok = true ∧
      c.exitCodes.ok = true) ∧ ¬ d.image.length ≤ d.memSize := by
  decide

/-- The exit statuses are integers: a negative one is admitted, 0 and a repeated one are not. -/
theorem test_exit_codes :
    (ExitCodes.mk (-1) 2 3 4 5).ok = true ∧ (ExitCodes.mk 0 2 3 4 5).ok = false ∧ (ExitCodes.mk 1 2 3 4 1).ok = false := by decide

/-- A machine that meets the invariant, with a given trap flag and status. -/
def ended (trap : Option Word) (status : Status) : State := { start 0 0x16000000 0 0 0 0 [] with trap := trap, status := status }

theorem inv_ended {trap : Option Word} {status : Status} (h : (ended trap status).trapAgrees) : (ended trap status).Inv where
  configOk := by
    show (Config.standard 64 0 [] (.listed [1#32, 3#32, 4#32] [2#32])).ok = true
    decide
  memWf := by
    show (start 0 0x16000000 0 0 0 0 []).mem.wf 0#32
    decide +kernel
  memWithin := by
    show (start 0 0x16000000 0 0 0 0 []).mem.within 64
    decide +kernel
  trapAgrees := h

theorem witness_HostSeesDistinctFailures :
    (ended none .running).Inv ∧ (ended none (.halted 7#32)).Inv ∧ (ended none (.exited 9#32)).Inv ∧
    (ended (some 64#32) (.fault .illegalMemoryAccess)).Inv ∧ (ended none (.fault .divisionByZero)).Inv :=
  ⟨inv_ended Status.noConfusion, inv_ended Status.noConfusion, inv_ended Status.noConfusion,
    inv_ended ⟨rfl, Nat.le_refl 64⟩, inv_ended (h := fun h => by cases h)⟩

theorem witness_StepKeepsInvariant :
    (ended none .running).Inv ∧ ∃ t, step (ended none .running) = .next t :=
  ⟨inv_ended Status.noConfusion, (exists_next (fun _ => True) (by decide +kernel)).imp fun _ h => h.1⟩

/-- A run of one step. -/
theorem witness_RunKeepsConfiguration : ∃ t, Reaches (ended none .running) t ∧ t.status ≠ .running :=
  (exists_next _ (by decide +kernel)).imp fun _ h => ⟨.next .start h.1, h.2⟩

/-- A form that faults after its first write: CALL with a stack pointer of 0. -/
theorem witness_RegisterFrame :
    (∃ t, exec (.callA 6#32) (start 3 0xA0000006 0 0x3F 0 0 []) = .next t) ∧ Reg.acc ∉ writtenRegs (.callA 6#32) :=
  ⟨(exists_next (fun _ => True) (by decide +kernel)).imp fun _ h => h.1, by decide⟩

/-- Byte 4 is the first byte after the word at address 0. -/
theorem witness_MemoryFrame :
    (∃ t, exec (.push (.imm 9#32)) (start 1 0x10300009 0 0 0 0 []) = .next t) ∧
    ∀ a ∈ storedAddrs (.push (.imm 9#32)) (start 1 0x10300009 0 0 0 0 []), 4 < 4 * a.toNat ∨ 4 * a.toNat + 4 ≤ 4 :=
  ⟨(exists_next (fun _ => True) (by decide +kernel)).imp fun _ h => h.1,
    by rw [show storedAddrs (.push (.imm 9#32)) (start 1 0x10300009 0 0 0 0 []) = [0#32] by decide +kernel]; simp⟩

theorem witness_StatusAndTrapFrame :
    ∃ t, exec (.add .acc (.imm 1#32)) (start 0 0 0 0 1 0 []) = .next t ∧ t.status ≠ .fault .illegalMemoryAccess ∧
      Instr.add .acc (.imm 1#32) ≠ .halt ∧ (∀ src, Instr.add .acc (.imm 1#32) ≠ .sys src) ∧ ∀ k, t.status ≠ .fault k :=
  (exists_next (fun t => t.status = .running) (by decide +kernel)).imp fun _ h =>
    ⟨h.1, by simp [h.2], by decide, by simp, by simp [h.2]⟩

/-- A step that completes, and one that takes a fault. -/
theorem witness_PcAfterStep :
    (∃ t, step (start 3 0xF0000007 0 0 0 0 []) = .next t ∧
      (start 3 0xF0000007 0 0 0 0 []).currentInstr = some (.beq 7#32) ∧ ∀ k, t.status ≠ .fault k) ∧
    ∃ t, step (start 3 0 0 0 0 0 []) = .next t ∧ t.status = .fault .illegalInstruction :=
  ⟨(exists_next (fun t => t.status = .running) (by decide +kernel)).imp fun _ h =>
    ⟨h.1, by decide +kernel, by simp [h.2]⟩, exists_next _ (by decide +kernel)⟩

/-- One step that ends in each fatal kind. -/
theorem witness_FaultCauses :
    stepped (start 0 0 0 0 0 0 []) State.status = some (.fault .illegalInstruction) ∧
    stepped (start 0 0xB0000040 0 0 0 0 []) State.status = some (.fault .illegalMemoryAccess) ∧
    stepped (start 0 0x05B00000 0 0 0 0 []) State.status = some (.fault .divisionByZero) ∧
    stepped (start 0 0x15300005 0 0 0 0 []) State.status = some (.fault .undefinedSystemCall) ∧
    stepped (start 0 0x15300002 0 0 0 0 []) State.status = some (.fault .unsupportedSystemCall) := by decide +kernel

theorem witness_RunEndsOnlyByHaltExitOrFault :
    (start 0 0x16000000 0 0 7 0 []).currentInstr = some .halt ∧
    stepped (start 0 0x16000000 0 0 7 0 []) State.status = some (.halted 7#32) ∧
    stepped (answering ⟨[.read 0x17#32], .exit 9#32⟩ (start 0 0x15300003 0x14 0x14 0 0 [(0x17, 9)])) State.status =
      some (.exited 9#32) ∧
    stepped (start 0 0x01B00007 0 0 0 0 []) State.status = some .running := by decide +kernel

/-- The three relations, at the ends of the signed range. -/
theorem witness_CompareResult :
    ((start 0 0 0 0x7FFFFFFF 0x80000000 0 []).reg .acc).toInt < ((start 0 0 0 0x7FFFFFFF 0x80000000 0 []).srcVal (.reg .fp)).toInt ∧
    ((start 0 0 0 0x80000000 0x80000000 0 []).reg .acc).toInt =
      ((start 0 0 0 0x80000000 0x80000000 0 []).srcVal (.reg .fp)).toInt ∧
    ((start 0 0 0 0x80000000 0x7FFFFFFF 0 []).srcVal (.reg .fp)).toInt <
      ((start 0 0 0 0x80000000 0x7FFFFFFF 0 []).reg .acc).toInt := by decide +kernel

/-- Counts 31 and 32 under the spec's law, and 31 and 32 under none. -/
theorem witness_ShiftResults :
    (start 0 0 0 0 1 0 []).cfg.shiftLaw = .modulo32 ∧ (lawless (start 0 0 0 0 1 0 [])).cfg.shiftLaw = .unstated ∧
    ((lawless (start 0 0 0 0 1 0 [])).srcVal (.imm 31#32)).toNat < 32 ∧
    ¬ ((lawless (start 0 0 0 0 1 0 [])).srcVal (.imm 32#32)).toNat < 32 := by decide +kernel

/-- Under the spec's law the overflowing pair -2^31 / -1 is among the operands; under none, operands that are not negative. -/
theorem witness_DivModResults :
    ((start 0 0 0 0 0x80000000 0 []).srcVal (.imm 0xFFFFFFFF#32) ≠ 0#32 ∧
      (start 0 0 0 0 0x80000000 0 []).cfg.divLaw = .truncate) ∧
    (lawless (start 0 0 0 0 0 0 [])).srcVal (.imm 1#32) ≠ 0#32 ∧
    0 ≤ ((lawless (start 0 0 0 0 0 0 [])).reg .acc).toInt ∧
    0 ≤ ((lawless (start 0 0 0 0 0 0 [])).srcVal (.imm 1#32)).toInt := by decide +kernel

theorem witness_DivisionByZeroFaults :
    (start 0 0 0 0 7 0 []).srcVal (.imm 0#32) = 0#32 ∧ (start 0 0 0 0 7 0 []).srcVal (.reg .fp) = 0#32 ∧
    (start 0 0 0 0 7 0 []).srcVal (.imm 1#32) ≠ 0#32 := by decide +kernel

theorem witness_DivModIdentities :
    ((start 0 0 0 1 0x80000000 0 []).srcVal (.reg .fp) ≠ 0#32 ∧ (start 0 0 0 1 0x80000000 0 []).cfg.divLaw = .truncate) ∧
    (lawless (start 0 0 0 1 0 0 [])).srcVal (.reg .fp) ≠ 0#32 ∧ 0 ≤ ((lawless (start 0 0 0 1 0 0 [])).reg .acc).toInt ∧
    0 ≤ ((lawless (start 0 0 0 1 0 0 [])).srcVal (.reg .fp)).toInt := by decide +kernel

theorem witness_ThreeInstructionsMakeAnyConstant : State.reset.status = .running := rfl

/-- The last word of memory, and the first address outside. -/
theorem witness_PushResult :
    (start 0 0 63 0 0 0 []).inRange ((start 0 0 63 0 0 0 []).reg .sp) = true ∧
    (start 0 0 64 0 0 0 []).inRange ((start 0 0 64 0 0 0 []).reg .sp) = false := by decide +kernel

theorem witness_PopResult :
    (start 0 0 62 0 0 0 []).inRange ((start 0 0 62 0 0 0 []).reg .sp + 1#32) = true ∧
    (start 0 0 63 0 0 0 []).inRange ((start 0 0 63 0 0 0 []).reg .sp + 1#32) = false := by decide +kernel

theorem witness_PopUndoesPush :
    (start 0 0 0 0 0 0 []).status = .running ∧ (start 0 0 0 0 0 0 []).inRange ((start 0 0 0 0 0 0 []).reg .sp) = true := by
  decide +kernel

theorem witness_LoadRegisterResult :
    (wrap32 (((start 0 0 0 64 0 0 []).reg .fp).toInt + (wrap32 (-1)).toInt)).toNat < (start 0 0 0 64 0 0 []).cfg.memSize ∧
    (start 0 0 0 0 0 0 []).cfg.memSize ≤ (wrap32 (((start 0 0 0 0 0 0 []).reg .fp).toInt + (wrap32 (-1)).toInt)).toNat := by
  decide +kernel

theorem witness_StoreRegisterResult :
    (start 0 0 0 64 0 0 []).inRange ((start 0 0 0 64 0 0 []).effAddr .fp (wrap32 (-1))) = true ∧
    (start 0 0 0 64 0 0 []).inRange ((start 0 0 0 64 0 0 []).effAddr .fp 0#32) = false := by decide +kernel

theorem witness_AbsoluteLoadStoreResults :
    (start 0 0 0 0 0 0 []).inRange 63#32 = true ∧ (start 0 0 0 0 0 0 []).inRange 64#32 = false := by decide +kernel

theorem witness_JumpAbsoluteResult :
    (start 5 0 0 0 0 0 []).status = .running ∧ (start 5 0 0 0 0 0 []).cfg.memSize ≤ (64#32 : Word).toNat ∧
    5#32 = (start 5 0 0 0 0 0 []).pc := by decide +kernel

theorem witness_JumpToItselfLoopsSafely :
    (start 7 0x90000007 0 0 0 0 []).status = .running ∧
    (start 7 0x90000007 0 0 0 0 []).currentInstr = some (.jmpA (start 7 0x90000007 0 0 0 0 []).pc) := by decide +kernel

/-- Both words in memory (the lowest and the highest place), the first outside, the second outside. -/
theorem witness_CallAbsoluteResult :
    ((start 3 0 1 0 0 0 []).inRange ((start 3 0 1 0 0 0 []).reg .sp) = true ∧
      (start 3 0 1 0 0 0 []).inRange ((start 3 0 1 0 0 0 []).reg .sp - 1#32) = true) ∧
    ((start 3 0 63 0 0 0 []).inRange ((start 3 0 63 0 0 0 []).reg .sp) = true ∧
      (start 3 0 63 0 0 0 []).inRange ((start 3 0 63 0 0 0 []).reg .sp - 1#32) = true) ∧
    (start 3 0 64 0 0 0 []).inRange ((start 3 0 64 0 0 0 []).reg .sp) = false ∧
    (start 3 0 0 0 0 0 []).inRange ((start 3 0 0 0 0 0 []).reg .sp) = true ∧
    (start 3 0 0 0 0 0 []).inRange ((start 3 0 0 0 0 0 []).reg .sp - 1#32) = false := by decide +kernel

theorem witness_CallRegisterResult :
    (start 3 0 1 0 0 0 []).inRange ((start 3 0 1 0 0 0 []).reg .sp) = true ∧
    (start 3 0 1 0 0 0 []).inRange ((start 3 0 1 0 0 0 []).reg .sp - 1#32) = true := by decide +kernel

/-- Both words in memory, the first outside, the second outside. -/
theorem witness_ReturnResult :
    ((start 3 0 0 62 0 0 []).inRange ((start 3 0 0 62 0 0 []).reg .fp) = true ∧
      (start 3 0 0 62 0 0 []).inRange ((start 3 0 0 62 0 0 []).reg .fp + 1#32) = true) ∧
    (start 3 0 0 64 0 0 []).inRange ((start 3 0 0 64 0 0 []).reg .fp) = false ∧
    (start 3 0 0 63 0 0 []).inRange ((start 3 0 0 63 0 0 []).reg .fp) = true ∧
    (start 3 0 0 63 0 0 []).inRange ((start 3 0 0 63 0 0 []).reg .fp + 1#32) = false := by decide +kernel

/-- The callee's state at its entry is itself one from which RET is balanced. -/
theorem witness_CallReturnBalance :
    ∃ t, exec (.callA 6#32) (start 3 0 0x3C 0x3F 0 0 []) = .next t ∧ (start 3 0 0x3C 0x3F 0 0 []).status = .running ∧
      t.status = .running ∧ t.cfg = (start 3 0 0x3C 0x3F 0 0 []).cfg ∧
      t.reg .fp = (start 3 0 0x3C 0x3F 0 0 []).reg .sp - 1#32 :=
  exists_next _ (by decide +kernel)

/-- Two nested calls that use the four lowest words. -/
theorem witness_NestedCallsBalance :
    (start 9 0 3 0 0 0 []).status = .running ∧ ((start 9 0 3 0 0 0 []).reg .sp).toNat < (start 9 0 3 0 0 0 []).cfg.memSize ∧
    2 * [Instr.callA 6#32, .callR (.reg .acc)].length ≤ ((start 9 0 3 0 0 0 []).reg .sp).toNat + 1 := by decide +kernel

theorem witness_ActivationRecordLayout :
    (start 9 0 3 0 0 0 []).status = .running ∧ 3 ≤ ((start 9 0 3 0 0 0 []).reg .sp).toNat ∧
    ((start 9 0 63 0 0 0 []).reg .sp).toNat < (start 9 0 63 0 0 0 []).cfg.memSize ∧
    3 ≤ ((start 9 0 63 0 0 0 []).reg .sp).toNat ∧ ((start 9 0 3 0 0 0 []).reg .sp).toNat < (start 9 0 3 0 0 0 []).cfg.memSize := by
  decide +kernel

theorem witness_BranchesAfterCompareTestTheRelation : (start 0 0 0 0 0 0 []).status = .running := by decide

/-- The RTS of part 8, selector 1: the product of the arguments at p + 3 and p + 4. -/
theorem witness_SystemCallReturns :
    let s := answering ⟨[.read 0x17#32, .read 0x3F#32], .ret 42#32⟩ (start 0 0 0x14 0x14 0 0 [])
    s.selectorClass (s.srcVal (.imm 1#32)) = .implemented ∧
    s.rtsPerformance (s.srcVal (.imm 1#32)) = ⟨[.read 0x17#32, .read 0x3F#32], .ret 42#32⟩ ∧
    s.allInRange [.read 0x17#32, .read 0x3F#32] :=
  ⟨by decide +kernel, by decide +kernel, fun x hx => by fin_cases hx <;> decide +kernel⟩

theorem witness_SystemCallExits :
    let s := answering ⟨[.write 0#32 1#32], .exit 9#32⟩ (start 0 0 0x14 0x14 0 0 [])
    s.selectorClass (s.srcVal (.imm 3#32)) = .implemented ∧
    s.rtsPerformance (s.srcVal (.imm 3#32)) = ⟨[.write 0#32 1#32], .exit 9#32⟩ ∧ s.allInRange [.write 0#32 1#32] :=
  ⟨by decide +kernel, by decide +kernel, fun x hx => by fin_cases hx; decide +kernel⟩

/-- A write in memory, then one at the first address outside. -/
theorem witness_SystemCallMemoryFault :
    let s := answering ⟨[.write 63#32 1#32] ++ .write 64#32 2#32 :: [], .ret 0#32⟩ (start 0 0 0x14 0x14 0 0 [])
    s.selectorClass (s.srcVal (.imm 4#32)) = .implemented ∧
    s.rtsPerformance (s.srcVal (.imm 4#32)) = ⟨[.write 63#32 1#32] ++ .write 64#32 2#32 :: [], .ret 0#32⟩ ∧
    s.allInRange [.write 63#32 1#32] ∧ s.inRange (accessAddr (.write 64#32 2#32)) = false :=
  ⟨by decide +kernel, by decide +kernel, fun x hx => by fin_cases hx; decide +kernel, by decide +kernel⟩

theorem witness_RejectedSystemCallsFault :
    (start 0 0 0 0 77 0 []).selectorClass ((start 0 0 0 0 77 0 []).srcVal (.reg .acc)) = .undefined ∧
    (start 0 0 0 0 77 0 []).selectorClass ((start 0 0 0 0 77 0 []).srcVal (.imm 2#32)) = .unsupported := by decide +kernel

theorem witness_UnansweredSystemCallIsStuck :
    let s := answering ⟨[], .never⟩ (start 0 0 0 0 0 0 [])
    s.selectorClass (s.srcVal (.imm 1#32)) = .implemented ∧ s.rtsPerformance (s.srcVal (.imm 1#32)) = ⟨[], .never⟩ ∧
    s.allInRange [] :=
  ⟨by decide +kernel, by decide +kernel, fun x hx => by cases hx⟩

end Sys2Proof.Tests
end

/-! The two sign extensions as R54 and R58 compute them. Both are one fact about every pair of widths: extending with 1s above the
sign bit adds -2^w to the zero extension. -/

namespace Sys2Proof

theorem signExtend_eq_ite_setWidth_add {w : Nat} (n : Nat) (v : BitVec w) :
    v.signExtend n = if v.msb then v.setWidth n + BitVec.ofInt n (-(2 ^ w : Nat)) else v.setWidth n := by
  have hzero : BitVec.ofInt n v.toNat = v.setWidth n := by rw [BitVec.ofInt_natCast, BitVec.ofNat_toNat]
  rw [BitVec.signExtend, BitVec.toInt_eq_msb_cond]
  split
  case isTrue => rw [Int.sub_eq_add_neg, BitVec.ofInt_add, hzero]
  case isFalse => exact hzero

theorem sext20_eq_ite (v : BitVec 20) :
    sext20 v = if v.msb then v.setWidth 32 + 0xFFF00000#32 else v.setWidth 32 := signExtend_eq_ite_setWidth_add 32 v

theorem sext24_eq_ite (v : BitVec 24) :
    sext24 v = if v.msb then v.setWidth 32 + 0xFF000000#32 else v.setWidth 32 := signExtend_eq_ite_setWidth_add 32 v

theorem toInt_sext20_mem_range (v : BitVec 20) : -524288 ≤ (sext20 v).toInt ∧ (sext20 v).toInt ≤ 524287 := by
  rw [toInt_sext20]
  have hlow : -2 ^ 19 ≤ v.toInt := BitVec.le_toInt v
  have hhigh : v.toInt < 2 ^ 19 := BitVec.toInt_lt
  omega

/-- Settles O2: each extension by its value on a clear and on a set sign bit, and by its signed value. -/
theorem signExtensionOfFields : Obligations.SignExtensionOfFields := by
  unfold Obligations.SignExtensionOfFields
  refine ⟨fun v => ?bits20, fun v => ?bits24, ?ones20, ?ones24⟩
  case bits20 => exact ⟨sext20_eq_ite v, toInt_sext20 v, toInt_sext20_mem_range v⟩
  case bits24 => exact ⟨sext24_eq_ite v, toInt_sext24 v⟩
  case ones20 => decide
  case ones24 => decide

end Sys2Proof

/-! Control transfer by an absolute target (R100, R102): what JMP.a and the three cases of CALL leave in every field. The facts of CALL
are about `callTo`, which both of its forms run. -/

namespace Sys2Proof.Machine

/-! ### Stores under later changes of registers, pc and status -/

/-- Whether two words are stored depends on memory and the configuration alone. -/
theorem storesTwo_congr {s t u : State} {a b : Nat} {v w : Word} (hmem : u.mem = t.mem) (hcfg : u.cfg = t.cfg)
    (h : s.StoresTwo t a v b w) : s.StoresTwo u a v b w where
  first := (readWord_congr hmem hcfg a).trans h.first
  second := (readWord_congr hmem hcfg b).trans h.second
  others k ha hb := (readByte_congr hmem hcfg k).trans (h.others k ha hb)

/-- Whether one word is stored depends on memory and the configuration alone. -/
theorem storesOnly_congr {s t u : State} {a : Nat} {v : Word} (hmem : u.mem = t.mem) (hcfg : u.cfg = t.cfg)
    (h : s.StoresOnly t a v) : s.StoresOnly u a v where
  stored := (readWord_congr hmem hcfg a).trans h.stored
  others k hk := (readByte_congr hmem hcfg k).trans (h.others k hk)

/-! ### JMP.a and the fetch at its target -/

theorem exec_jmpA (target : Word) (s : State) : exec (.jmpA target) s = .next (s.advance.setPc target) := rfl

/-- What the advance wrote to pc is overwritten by the transfer. -/
@[simp] theorem advance_setPc (s : State) (target : Word) : s.advance.setPc target = s.setPc target := rfl

theorem setPc_self (s : State) : s.setPc s.pc = s := rfl

theorem setPc_transfersOnly (s : State) (target : Word) : s.TransfersOnly (s.setPc target) target where
  regs _ := reg_setPc ..
  pc := setPc_pc ..
  mem := setPc_mem ..
  rest := by constructor <;> simp

/-- The fetch of a running machine whose pc is outside memory faults (R81). -/
theorem step_of_pc_outside {s : State} (hrun : s.status = .running) (hpc : s.inRange s.pc = false) :
    step s = .next (s.raiseMem s.pc s.pc) := by
  have hfetch : s.fetch = none := memRead_of_not_inRange hpc
  simp only [step, hrun, hfetch]

/-- The fetch raises from a pc that is not advanced yet. -/
theorem fetchFault_takesMemFault (s : State) : s.TakesMemFault (s.raiseMem s.pc s.pc) s.pc :=
  raiseMem_takesMemFault s s.pc

/-- Settles O41: the advanced pc is overwritten by the target, and a target outside memory is what the next fetch reads at. -/
theorem jumpAbsoluteResult : Obligations.JumpAbsoluteResult := by
  unfold Obligations.JumpAbsoluteResult
  intro target s
  rw [exec_jmpA, advance_setPc]
  refine ⟨_, rfl, setPc_transfersOnly s target, ?selfJump, ?outside⟩
  case selfJump =>
    rintro rfl
    exact setPc_self s
  case outside =>
    intro hrun htarget
    have hpc : (s.setPc target).inRange (s.setPc target).pc = false := not_inRange_iff.2 htarget
    exact ⟨_, step_of_pc_outside hrun hpc, fetchFault_takesMemFault _⟩

/-! ### CALL -/

theorem exec_callA (target : Word) (s : State) : exec (.callA target) s = .next (callTo target s) := rfl

/-- CALL with both slots in memory: the two words, the two pointers and the transfer. -/
theorem callTo_links (target : Word) {s : State} (hfirst : s.inRange (s.reg .sp) = true)
    (hsecond : s.inRange (s.reg .sp - 1#32) = true) :
    s.StoresTwo (callTo target s) (s.reg .sp).toNat (s.reg .fp) (s.reg .sp - 1#32).toNat (s.pc + 1#32) ∧
      (callTo target s).reg .fp = s.reg .sp - 1#32 ∧ (callTo target s).reg .sp = s.reg .sp - 2#32 ∧
      (callTo target s).reg .acc = s.reg .acc ∧ (callTo target s).reg .sec = s.reg .sec ∧
      (callTo target s).pc = target ∧ s.SameRest (callTo target s) := by
  rw [callTo_completes target hfirst hsecond]
  refine ⟨storesTwo_congr (by simp) (by simp) (callWrites_storesTwo s), ?fp, ?sp, ?acc, ?sec, ?pc, ?rest⟩
  case sp => simpa using sub_sub (s.reg .sp) 1#32 1#32
  case rest => constructor <;> simp
  all_goals simp

/-- CALL with the first slot outside memory faults before anything is written. -/
theorem callTo_takesMemFault (target : Word) {s : State} (hfirst : s.inRange (s.reg .sp) = false) :
    s.TakesMemFault (callTo target s) (s.reg .sp) := by
  rw [callTo_first_faults target hfirst]
  exact raiseMem_takesMemFault s _

/-- CALL with only the second slot outside memory: the fault leaves the first push and the new frame pointer (R191). -/
theorem callTo_faults_after_first_push (target : Word) {s : State} (hfirst : s.inRange (s.reg .sp) = true)
    (hsecond : s.inRange (s.reg .sp - 1#32) = false) :
    s.EndsInMemFault (callTo target s) (s.reg .sp - 1#32) ∧
      s.StoresOnly (callTo target s) (s.reg .sp).toNat (s.reg .fp) ∧
      (callTo target s).reg .sp = s.reg .sp - 1#32 ∧ (callTo target s).reg .fp = s.reg .sp - 1#32 ∧
      (callTo target s).reg .acc = s.reg .acc ∧ (callTo target s).reg .sec = s.reg .sec := by
  rw [callTo_second_faults target hfirst hsecond]
  refine ⟨?fault, storesOnly_congr (by simp) (by simp) (writeWord_storesOnly s _ _), ?sp, ?fp, ?acc, ?sec⟩
  case fault => constructor <;> simp
  all_goals simp

/-- Settles O44: one case of CALL for each clause, by which of the two slots is the first outside memory. -/
theorem callAbsoluteResult : Obligations.CallAbsoluteResult := by
  unfold Obligations.CallAbsoluteResult
  intro target s
  simp only [exec_callA]
  refine ⟨fun hfirst hsecond => ?completes, fun hfirst => ?firstFaults, fun hfirst hsecond => ?secondFaults⟩
  case completes => exact ⟨_, rfl, callTo_links target hfirst hsecond⟩
  case firstFaults => exact ⟨_, rfl, callTo_takesMemFault target hfirst⟩
  case secondFaults => exact ⟨_, rfl, callTo_faults_after_first_push target hfirst hsecond⟩

end Sys2Proof.Machine

/-! MOV, ADD, SUB and OR (R121, R122, R123, R128), which complete on every operand and under every law. That an operation writes only
its destination is `aluOp_writesOnly`; what is left is the word each computes, a sum or a difference modulo 2^32 of unsigned readings. -/

namespace Sys2Proof

theorem wrap32_toNat_add_toNat (a b : Word) : wrap32 (a.toNat + b.toNat) = a + b := by
  rw [wrap32_add, wrap32_toNat, wrap32_toNat]

theorem wrap32_toNat_sub_toNat (a b : Word) : wrap32 (a.toNat - b.toNat) = a - b := by
  rw [wrap32_sub, wrap32_toNat, wrap32_toNat]

end Sys2Proof

namespace Sys2Proof.Machine

section
variable (rb : Reg) (src : Src) (s : State)

theorem exec_mov : exec (.mov rb src) s = .next (aluOp (fun _ b => b) rb src s) := rfl

theorem exec_add : exec (.add rb src) s = .next (aluOp (fun a b => a + b) rb src s) := rfl

theorem exec_sub : exec (.sub rb src) s = .next (aluOp (fun a b => a - b) rb src s) := rfl

theorem exec_or : exec (.or rb src) s = .next (aluOp (fun a b => a ||| b) rb src s) := rfl

end

/-- Settles O26: each operation is an `aluOp`, and word addition and subtraction reduce the unsigned results modulo 2^32. -/
theorem moveAddSubOrResults : Obligations.MoveAddSubOrResults := by
  unfold Obligations.MoveAddSubOrResults
  intro rb src s
  refine ⟨⟨_, exec_mov rb src s, ?mov⟩, ⟨_, exec_add rb src s, ?add⟩, ⟨_, exec_sub rb src s, ?sub⟩,
    ⟨_, s.reg rb ||| s.srcVal src, exec_or rb src s, ?or, ?orBits⟩⟩
  case mov => exact aluOp_writesOnly (fun _ b => b) rb src s
  case add =>
    rw [wrap32_toNat_add_toNat]
    exact aluOp_writesOnly (fun a b => a + b) rb src s
  case sub =>
    rw [wrap32_toNat_sub_toNat]
    exact aluOp_writesOnly (fun a b => a - b) rb src s
  case or => exact aluOp_writesOnly (fun a b => a ||| b) rb src s
  case orBits => exact fun _ => BitVec.getLsbD_or

end Sys2Proof.Machine

/-! PUSH (R141): what a push of an operand leaves in every field where x[0] is in memory, and the fault where it is not. -/

namespace Sys2Proof.Machine

theorem exec_push (src : Src) (s : State) : exec (.push src) s = execPush src s := rfl

/-- The writes of PUSH: the operand where the stack pointer points, then the stack pointer one lower. -/
def pushWrites (src : Src) (s : State) : State :=
  (s.advance.writeWord (s.reg .sp).toNat (s.srcVal src)).setReg .sp (s.reg .sp - 1#32)

theorem exec_push_of_inRange (src : Src) {s : State} (h : s.inRange (s.reg .sp) = true) :
    exec (.push src) s = .next (pushWrites src s) := by
  rw [exec_push, execPush_of_inRange src h, pushWrites]

theorem exec_push_of_not_inRange (src : Src) {s : State} (h : s.inRange (s.reg .sp) = false) :
    exec (.push src) s = .next (s.advance.raiseMem s.pc (s.reg .sp)) := by
  rw [exec_push, execPush_of_not_inRange src h]

section
variable (src : Src) (s : State)

@[simp] theorem reg_pushWrites_sp : (pushWrites src s).reg .sp = s.reg .sp - 1#32 := reg_setReg_same ..

theorem reg_pushWrites_ne {q : Reg} (h : q ≠ .sp) : (pushWrites src s).reg q = s.reg q := by
  rw [pushWrites, reg_setReg_ne _ _ _ _ h, reg_writeWord, reg_advance]

@[simp] theorem pushWrites_pc : (pushWrites src s).pc = s.pc + 1#32 := by simp [pushWrites]

/-- Neither the advance of pc nor the move of the stack pointer is seen in memory. -/
theorem pushWrites_storesOnly : s.StoresOnly (pushWrites src s) (s.reg .sp).toNat (s.srcVal src) :=
  storesOnly_congr (by simp [pushWrites]) (by simp [pushWrites]) (writeWord_storesOnly s _ _)

theorem pushWrites_sameRest : s.SameRest (pushWrites src s) := by
  constructor <;> simp [pushWrites]

end

/-- Settles O35: one case of PUSH for each clause, by whether the slot at x[0] is in memory. -/
theorem pushResult : Obligations.PushResult := by
  unfold Obligations.PushResult
  intro src s
  refine ⟨fun hin => ⟨_, exec_push_of_inRange src hin, ?stores⟩, fun hout => ⟨_, exec_push_of_not_inRange src hout, ?faults⟩⟩
  case stores =>
    exact ⟨pushWrites_storesOnly src s, reg_pushWrites_sp src s, fun _ => reg_pushWrites_ne src s, pushWrites_pc src s,
      pushWrites_sameRest src s⟩
  case faults => exact raiseMem_takesMemFault s (s.reg .sp)

end Sys2Proof.Machine

/-! MOV.ld (R151): what a load into a register leaves in every field where the address is in memory, and the fault where it is not.
The facts of the load are about `loadInto`, which both loads run. -/

namespace Sys2Proof

theorem wrap32_toInt_add_toInt (a b : Word) : wrap32 (a.toInt + b.toInt) = a + b := by
  rw [wrap32_add, wrap32_toInt, wrap32_toInt]

end Sys2Proof

namespace Sys2Proof.Machine

theorem advance_setReg_writesOnly (rd : Reg) (v : Word) (s : State) : s.WritesOnly (s.advance.setReg rd v) rd v where
  written := reg_setReg_same ..
  others q h := by rw [reg_setReg_ne _ _ _ _ h, reg_advance]
  pc := by simp
  mem := by simp
  rest := by constructor <;> simp

/-- A load from memory writes the word it reads and nothing else. -/
theorem loadInto_writesOnly (rd : Reg) {ea : Word} {s : State} (h : s.inRange ea = true) :
    s.WritesOnly (loadInto rd ea s) rd (s.readWord ea.toNat) := by
  rw [loadInto_of_inRange rd h]
  exact advance_setReg_writesOnly rd _ s

/-- A load from outside memory faults with that address in trap and leaves its destination alone. -/
theorem loadInto_takesMemFault (rd : Reg) {ea : Word} {s : State} (h : s.inRange ea = false) :
    s.TakesMemFault (loadInto rd ea s) ea := by
  rw [loadInto_of_not_inRange rd h]
  exact raiseMem_takesMemFault s ea

theorem exec_movLd (rd base : Reg) (offset : Word) (s : State) :
    exec (.movLd rd base offset) s = .next (loadInto rd (s.effAddr base offset) s) := rfl

/-- The effective address reduces the sum of the signed readings modulo 2^32. -/
theorem effAddr_eq_wrap32 (s : State) (base : Reg) (offset : Word) :
    s.effAddr base offset = wrap32 ((s.reg base).toInt + offset.toInt) := by
  rw [effAddr_eq, wrap32_toInt_add_toInt]

/-- Settles O38: MOV.ld is `loadInto` at the effective address, split by whether that address is in memory. -/
theorem loadRegisterResult : Obligations.LoadRegisterResult := by
  unfold Obligations.LoadRegisterResult
  intro rd base offset s
  simp only [exec_movLd, ← effAddr_eq_wrap32]
  refine ⟨fun hin => ⟨_, rfl, ?loads⟩, fun hout => ⟨_, rfl, ?faults⟩⟩
  case loads => exact loadInto_writesOnly rd (inRange_iff.2 hin)
  case faults => exact loadInto_takesMemFault rd (not_inRange_iff.2 hout)

end Sys2Proof.Machine

/-! The end of a run (R190): nothing follows a step taken with any status but running, so the only state such a machine reaches is its
own. -/

namespace Sys2Proof.Machine

theorem step_of_not_running {s : State} (h : s.status ≠ .running) : step s = .fault .runEnded := by
  cases hstatus : s.status with
  | running => exact absurd hstatus h
  | halted v => simp only [step, hstatus]
  | exited v => simp only [step, hstatus]
  | fault kind => simp only [step, hstatus]

theorem eq_of_reaches_of_not_running {s t : State} (h : s.status ≠ .running) (hreach : Reaches s t) : t = s := by
  induction hreach with
  | start => rfl
  | next _ hstep ih =>
    subst ih
    exact absurd (running_of_step hstep) h

/-- Settles O10: a step that answers a next state starts from a running machine, and an invocation sets status, trap and pc. -/
theorem endedRunTakesNoStep : Obligations.EndedRunTakesNoStep := by
  unfold Obligations.EndedRunTakesNoStep
  refine ⟨fun s hended => ?ended, fun s entry => ?invoked⟩
  case ended => exact ⟨step_of_not_running hended, fun _ => eq_of_reaches_of_not_running hended⟩
  case invoked => exact ⟨invoke_status s entry, invoke_trap s entry, invoke_pc s entry⟩

end Sys2Proof.Machine

/-! Illegal words (R171): the opcode bytes that select no instruction under an assignment, and the fault of executing such a word. -/

namespace Sys2Proof

/-- The opcode bytes that no table of the assignment lists: with the top bit clear neither an R-format nor an M-format number, and with
it set a condition (selector 7) or else a selector that is not assigned. -/
def OpcodeTable.Unassigned (o : OpcodeTable) (opb : BitVec 8) : Prop :=
  if opb.msb then
    if opb.extractLsb' 4 3 = 7#3 then opb.extractLsb' 0 4 ∉ o.bNumbers else opb.extractLsb' 4 3 ∉ o.aNumbers
  else opb ∉ o.rNumbers ∧ opb ∉ o.mNumbers

theorem lookup_eq_none_iff_not_mem {α β : Type} [DecidableEq α] {l : List (α × β)} {a : α} :
    l.lookup a = none ↔ a ∉ l.map Prod.fst := by
  refine ⟨fun hnone hmem => ?_, lookup_of_not_mem⟩
  obtain ⟨c, hc, rfl⟩ := List.mem_map.1 hmem
  simpa using List.lookup_eq_none_iff.1 hnone c hc

section
variable (o : OpcodeTable) (ra : RaDecode) (w : Word)

theorem decodeLower_illegal_iff :
    (∃ why, decodeLower o ra w = .illegal why) ↔ opbField w ∉ o.rNumbers ∧ opbField w ∉ o.mNumbers := by
  rw [← map_fst_rOps, ← map_fst_mOps, ← lookup_eq_none_iff_not_mem, ← lookup_eq_none_iff_not_mem, decodeLower]
  cases (rOps o).lookup (opbField w) with
  | some mk => simp
  | none => cases (mOps o).lookup (opbField w) <;> simp

theorem decodeBranch_illegal_iff : (∃ why, decodeBranch o w = .illegal why) ↔ condField w ∉ o.bNumbers := by
  rw [← map_fst_bOps, ← lookup_eq_none_iff_not_mem, decodeBranch]
  cases (bOps o).lookup (condField w) <;> simp

theorem decodeUpper_illegal_iff :
    (∃ why, decodeUpper o w = .illegal why) ↔
      if selField w = 7#3 then condField w ∉ o.bNumbers else selField w ∉ o.aNumbers := by
  rw [decodeUpper]
  split
  case isTrue => exact decodeBranch_illegal_iff o w
  case isFalse =>
    rw [← map_fst_aOps, ← lookup_eq_none_iff_not_mem]
    cases (aOps o).lookup (selField w) <;> simp

/-- The fields the decoder selects by are all part of the opcode byte. -/
theorem decode_illegal_iff : (∃ why, decode o ra w = .illegal why) ↔ o.Unassigned (opbField w) := by
  rw [decode, OpcodeTable.Unassigned, ← msb_eq_opbField, ← selField_eq_opbField, ← condField_eq_opbField]
  split
  case isTrue => exact decodeUpper_illegal_iff o w
  case isFalse => exact decodeLower_illegal_iff o ra w

end

end Sys2Proof

namespace Sys2Proof.Machine

theorem step_of_illegal {s : State} {why : IllegalWord} (hrun : s.status = .running) (hpc : s.inRange s.pc = true)
    (hillegal : decode s.cfg.opc s.cfg.raDecode (s.readWord s.pc.toNat) = .illegal why) :
    step s = .next (s.advance.raise s.pc .illegalInstruction) := by
  simp only [step, hrun, fetch_of_inRange hpc, hillegal]

theorem step_raise (s : State) (ia : Word) (kind : FaultKind) : step (s.raise ia kind) = .fault .runEnded :=
  step_of_not_running Status.noConfusion

/-- Settles O9: the fault is raised before anything is written, and illegality is a property of the opcode byte. -/
theorem illegalWordFaults : Obligations.IllegalWordFaults := by
  unfold Obligations.IllegalWordFaults
  refine ⟨fun s why hrun hpc hillegal => ?faults, fun o ra w w' hopb => ?opcodeByte⟩
  case faults => exact ⟨_, step_of_illegal hrun hpc hillegal, raise_takesFault s _, step_raise ..⟩
  case opcodeByte => rw [decode_illegal_iff, decode_illegal_iff, hopb]

end Sys2Proof.Machine

/-! Arithmetic faults (R173): DIV and MOD are `divideOp`, which raises on a zero operand, and every other operation is an `aluOp`, which
raises nothing. -/

namespace Sys2Proof.Machine

section
variable (rb : Reg) (src : Src) (s : State)

theorem exec_div : exec (.div rb src) s = .next (divideOp (quotient s.cfg.divLaw) rb src s) := rfl

theorem exec_mod : exec (.mod rb src) s = .next (divideOp (remainder s.cfg.divLaw) rb src s) := rfl

theorem exec_mul : exec (.mul rb src) s = .next (aluOp (fun a b => a * b) rb src s) := rfl

theorem exec_and : exec (.and rb src) s = .next (aluOp (fun a b => a &&& b) rb src s) := rfl

theorem exec_shl : exec (.shl rb src) s = .next (aluOp (shiftLeft s.cfg.shiftLaw) rb src s) := rfl

theorem exec_shr : exec (.shr rb src) s = .next (aluOp (shiftRight s.cfg.shiftLaw) rb src s) := rfl

theorem exec_cmp : exec (.cmp rb src) s = .next (aluOp compareSigned rb src s) := rfl

theorem exec_eq_divideOp : ∀ i ∈ [Instr.div rb src, Instr.mod rb src], ∃ f, exec i s = .next (divideOp f rb src s) := by
  simp only [List.forall_mem_cons]
  exact ⟨⟨_, exec_div ..⟩, ⟨_, exec_mod ..⟩, List.forall_mem_nil _⟩

theorem exec_eq_aluOp :
    ∀ i ∈ [Instr.mov rb src, .add rb src, .sub rb src, .mul rb src, .and rb src, .or rb src, .shl rb src, .shr rb src,
      .cmp rb src], ∃ f, exec i s = .next (aluOp f rb src s) := by
  simp only [List.forall_mem_cons]
  exact ⟨⟨_, exec_mov ..⟩, ⟨_, exec_add ..⟩, ⟨_, exec_sub ..⟩, ⟨_, exec_mul ..⟩, ⟨_, exec_and ..⟩, ⟨_, exec_or ..⟩,
    ⟨_, exec_shl ..⟩, ⟨_, exec_shr ..⟩, ⟨_, exec_cmp ..⟩, List.forall_mem_nil _⟩

end

theorem divideOp_takesFault (f : Word → Word → Word) (rb : Reg) {src : Src} {s : State} (hzero : s.srcVal src = 0#32) :
    s.TakesFault (divideOp f rb src s) .divisionByZero := by
  rw [divideOp_of_zero f rb hzero]
  exact raise_takesFault s _

theorem aluOp_status (f : Word → Word → Word) (rb : Reg) (src : Src) (s : State) : (aluOp f rb src s).status = s.status :=
  (aluOp_writesOnly f rb src s).rest.status

theorem divideOp_status (f : Word → Word → Word) (rb : Reg) {src : Src} {s : State} (hne : s.srcVal src ≠ 0#32) :
    (divideOp f rb src s).status = s.status := by
  rw [divideOp_of_ne_zero f rb hne, aluOp_status]

/-- Settles O31: by the two shapes of an arithmetic operation, and for `divideOp` by whether its operand is zero. -/
theorem divisionByZeroFaults : Obligations.DivisionByZeroFaults := by
  unfold Obligations.DivisionByZeroFaults
  intro rb src s
  refine ⟨fun hzero i hi => ?faults, fun hne i hi => ?divides, fun i hi => ?computes⟩
  case faults =>
    obtain ⟨f, hexec⟩ := exec_eq_divideOp rb src s i hi
    exact ⟨_, hexec, divideOp_takesFault f rb hzero⟩
  case divides =>
    obtain ⟨f, hexec⟩ := exec_eq_divideOp rb src s i hi
    exact ⟨_, hexec, divideOp_status f rb hne⟩
  case computes =>
    obtain ⟨f, hexec⟩ := exec_eq_aluOp rb src s i hi
    exact ⟨_, hexec, aluOp_status f rb src s⟩

end Sys2Proof.Machine

/-! Rejected system calls (R174, R175): SYS raises before anything is written where the RTS does not perform the selector. -/

namespace Sys2Proof.Machine

theorem exec_sys (src : Src) (s : State) : exec (.sys src) s = execSys src s := rfl

/-- Settles O55: one rejecting class of the selector for each clause. -/
theorem rejectedSystemCallsFault : Obligations.RejectedSystemCallsFault := by
  unfold Obligations.RejectedSystemCallsFault
  intro src s
  rw [exec_sys]
  refine ⟨fun hclass => ⟨_, execSys_of_undefined hclass, ?undefined⟩,
    fun hclass => ⟨_, execSys_of_unsupported hclass, ?unsupported⟩⟩
  case undefined => exact raise_takesFault s .undefinedSystemCall
  case unsupported => exact raise_takesFault s .unsupportedSystemCall

end Sys2Proof.Machine

/-! What ends a run (R206). Every instruction but HALT and SYS answers a next state whose status is the old one or a fault: one lemma
for each shared operation, then one case for each of them. SYS can also end in `Exited(v)`, and HALT ends in `Halted(v)`. -/

namespace Sys2Proof.Machine

/-- From `s` to `t` the run is neither halted nor exited. -/
def State.KeepsStatusOrFaults (s t : State) : Prop := t.status = s.status ∨ ∃ k, t.status = .fault k

theorem keepsStatusOrFaults_of_eq {s t : State} (h : t.status = s.status) : s.KeepsStatusOrFaults t := .inl h

theorem keepsStatusOrFaults_of_fault {s t : State} {k : FaultKind} (h : t.status = .fault k) : s.KeepsStatusOrFaults t :=
  .inr ⟨k, h⟩

/-! ### The shared operations -/

section
variable (s : State)

theorem aluOp_keepsStatusOrFaults (f : Word → Word → Word) (rb : Reg) (src : Src) :
    s.KeepsStatusOrFaults (aluOp f rb src s) := keepsStatusOrFaults_of_eq (aluOp_status f rb src s)

theorem divideOp_keepsStatusOrFaults (f : Word → Word → Word) (rb : Reg) (src : Src) :
    s.KeepsStatusOrFaults (divideOp f rb src s) := by
  by_cases hzero : s.srcVal src = 0#32
  case pos => exact keepsStatusOrFaults_of_fault (divideOp_takesFault f rb hzero).status
  case neg => exact keepsStatusOrFaults_of_eq (divideOp_status f rb hzero)

theorem loadInto_keepsStatusOrFaults (rd : Reg) (ea : Word) : s.KeepsStatusOrFaults (loadInto rd ea s) := by
  cases hin : s.inRange ea with
  | true => exact keepsStatusOrFaults_of_eq (loadInto_writesOnly rd hin).rest.status
  | false => exact keepsStatusOrFaults_of_fault (loadInto_takesMemFault rd hin).fault.status

theorem storeFrom_keepsStatusOrFaults (rd : Reg) (ea : Word) : s.KeepsStatusOrFaults (storeFrom rd ea s) := by
  cases hin : s.inRange ea with
  | true => exact keepsStatusOrFaults_of_eq (by simp [storeFrom_of_inRange rd hin])
  | false =>
    rw [storeFrom_of_not_inRange rd hin]
    exact keepsStatusOrFaults_of_fault (raiseMem_status ..)

theorem branchIf_keepsStatusOrFaults (cond : Word → Bool) (offset : Word) :
    s.KeepsStatusOrFaults (branchIf cond offset s) :=
  keepsStatusOrFaults_of_eq (branchIf_transfersOnly cond offset s).rest.status

theorem callTo_keepsStatusOrFaults (target : Word) : s.KeepsStatusOrFaults (callTo target s) := by
  cases hfirst : s.inRange (s.reg .sp) with
  | false => exact keepsStatusOrFaults_of_fault (callTo_takesMemFault target hfirst).fault.status
  | true =>
    cases hsecond : s.inRange (s.reg .sp - 1#32) with
    | false => exact keepsStatusOrFaults_of_fault (callTo_faults_after_first_push target hfirst hsecond).1.status
    | true => exact keepsStatusOrFaults_of_eq (by simp [callTo_completes target hfirst hsecond])

theorem execPush_keepsStatusOrFaults (src : Src) : ∃ t, execPush src s = .next t ∧ s.KeepsStatusOrFaults t := by
  cases hin : s.inRange (s.reg .sp) with
  | true => exact ⟨_, execPush_of_inRange src hin, keepsStatusOrFaults_of_eq (by simp)⟩
  | false => exact ⟨_, execPush_of_not_inRange src hin, keepsStatusOrFaults_of_fault (raiseMem_status ..)⟩

theorem execPop_keepsStatusOrFaults (rb : Reg) : ∃ t, execPop rb s = .next t ∧ s.KeepsStatusOrFaults t := by
  cases hin : s.inRange (s.reg .sp + 1#32) with
  | true => exact ⟨_, execPop_of_inRange rb hin, keepsStatusOrFaults_of_eq (by simp)⟩
  | false => exact ⟨_, execPop_of_not_inRange rb hin, keepsStatusOrFaults_of_fault (raiseMem_status ..)⟩

theorem execRet_keepsStatusOrFaults : ∃ t, execRet s = .next t ∧ s.KeepsStatusOrFaults t := by
  cases hfirst : s.inRange (s.reg .fp) with
  | false => exact ⟨_, execRet_first_faults hfirst, keepsStatusOrFaults_of_fault (raiseMem_status ..)⟩
  | true =>
    cases hsecond : s.inRange (s.reg .fp + 1#32) with
    | false => exact ⟨_, execRet_second_faults hfirst hsecond, keepsStatusOrFaults_of_fault (raiseMem_status ..)⟩
    | true => exact ⟨_, execRet_completes hfirst hsecond, keepsStatusOrFaults_of_eq (by simp)⟩

end

/-! ### The instructions -/

/-- Every instruction but HALT and SYS has a next state, and it neither halts nor exits. -/
theorem exec_keepsStatusOrFaults {i : Instr} (s : State) (hhalt : i ≠ .halt) (hsys : ∀ src, i ≠ .sys src) :
    ∃ t, exec i s = .next t ∧ s.KeepsStatusOrFaults t := by
  cases i
  case halt => exact absurd rfl hhalt
  case sys src => exact absurd rfl (hsys src)
  case mov rb src | add rb src | sub rb src | mul rb src | and rb src | or rb src | shl rb src | shr rb src | cmp rb src =>
    exact ⟨_, rfl, aluOp_keepsStatusOrFaults s _ rb src⟩
  case div rb src | mod rb src => exact ⟨_, rfl, divideOp_keepsStatusOrFaults s _ rb src⟩
  case ladM rd base offset | ladA target => exact ⟨_, rfl, keepsStatusOrFaults_of_eq (by simp)⟩
  case jmpR src | jmpA target => exact ⟨_, rfl, keepsStatusOrFaults_of_eq (by simp)⟩
  case callR src | callA target => exact ⟨_, rfl, callTo_keepsStatusOrFaults s _⟩
  case beq offset | bne offset | blt offset | ble offset | bgt offset | bge offset =>
    exact ⟨_, rfl, branchIf_keepsStatusOrFaults s _ offset⟩
  case movLd rd base offset | movLda target => exact ⟨_, rfl, loadInto_keepsStatusOrFaults s _ _⟩
  case movSt rd base offset | movSta target => exact ⟨_, rfl, storeFrom_keepsStatusOrFaults s _ _⟩
  case push src => exact execPush_keepsStatusOrFaults s src
  case pop rb => exact execPop_keepsStatusOrFaults s rb
  case ret => exact execRet_keepsStatusOrFaults s

theorem exec_halt (s : State) : exec .halt s = .next (s.advance.setStatus (.halted (s.reg .acc))) := rfl

theorem status_of_exec_halt {s t : State} (h : exec .halt s = .next t) : t.status = .halted (s.reg .acc) := by
  rw [exec_halt] at h
  cases h
  exact setStatus_status ..

theorem status_of_finishCall {ending : RtsEnding} {s t : State} (h : finishCall ending s = .next t) :
    t.status = s.status ∨ ∃ v, t.status = .exited v := by
  cases ending with
  | ret v => cases h; exact .inl (setReg_status ..)
  | exit v => cases h; exact .inr ⟨v, setStatus_status ..⟩
  | never => cases h

/-- A system call that is answered does not halt: it returns, faults or exits. -/
theorem status_of_exec_sys {src : Src} {s t : State} (h : exec (.sys src) s = .next t) :
    s.KeepsStatusOrFaults t ∨ ∃ v, t.status = .exited v := by
  rw [exec_sys] at h
  cases hclass : s.selectorClass (s.srcVal src) with
  | undefined =>
    rw [execSys_of_undefined hclass] at h
    cases h
    exact .inl (keepsStatusOrFaults_of_fault (raise_status ..))
  | unsupported =>
    rw [execSys_of_unsupported hclass] at h
    cases h
    exact .inl (keepsStatusOrFaults_of_fault (raise_status ..))
  | implemented =>
    obtain ⟨m, ⟨a, _, houtside⟩ | hfinish, _⟩ := execSys_of_implemented hclass
    · rw [houtside] at h
      cases h
      exact .inl (keepsStatusOrFaults_of_fault (raiseMem_status ..))
    · rw [hfinish] at h
      exact (status_of_finishCall h).imp_left keepsStatusOrFaults_of_eq

/-! ### The step -/

theorem step_eq_exec {s : State} {i : Instr} (hrun : s.status = .running) (hcur : s.currentInstr = some i) :
    step s = exec i s := by
  rcases step_running_cases hrun with ⟨_, hnone, _⟩ | ⟨_, _, _, _, hnone, _⟩ | ⟨_, j, _, _, hj, hstep⟩
  · simp [hnone] at hcur
  · simp [hnone] at hcur
  · obtain rfl : j = i := Option.some.inj (hj.symm.trans hcur)
    exact hstep

/-- How a step of a running machine can leave the status: going on or faulting, halted by HALT, or exited by SYS. -/
theorem step_status_cases {s t : State} (hrun : s.status = .running) (hstep : step s = .next t) :
    (t.status = .running ∨ ∃ k, t.status = .fault k) ∨
      (s.currentInstr = some .halt ∧ t.status = .halted (s.reg .acc)) ∨
      ∃ src v, s.currentInstr = some (.sys src) ∧ t.status = .exited v := by
  rw [← hrun]
  rcases step_running_cases hrun with ⟨_, _, hfetch⟩ | ⟨_, _, _, _, _, hillegal⟩ | ⟨_, i, _, _, hcur, hexec⟩
  · cases hfetch.symm.trans hstep
    exact .inl (keepsStatusOrFaults_of_fault (raiseMem_status ..))
  · cases hillegal.symm.trans hstep
    exact .inl (keepsStatusOrFaults_of_fault (raise_status ..))
  · rw [hexec] at hstep
    by_cases hhalt : i = .halt
    · subst hhalt
      exact .inr (.inl ⟨hcur, status_of_exec_halt hstep⟩)
    by_cases hsys : ∃ src, i = .sys src
    · obtain ⟨src, rfl⟩ := hsys
      exact (status_of_exec_sys hstep).imp_right fun ⟨v, hexited⟩ => .inr ⟨src, v, hcur, hexited⟩
    · obtain ⟨t', ht', hkeeps⟩ := exec_keepsStatusOrFaults s hhalt (not_exists.1 hsys)
      cases ht'.symm.trans hstep
      exact .inl hkeeps

theorem finishCall_ne_runEnded (ending : RtsEnding) (s : State) : finishCall ending s ≠ .fault .runEnded := by
  cases ending <;> simp [finishCall]

/-- The one stop of an instruction is an unanswered system call (U4). -/
theorem exec_ne_runEnded (i : Instr) (s : State) : exec i s ≠ .fault .runEnded := by
  by_cases hhalt : i = .halt
  · simp [hhalt, exec_halt]
  by_cases hsys : ∃ src, i = .sys src
  · obtain ⟨src, rfl⟩ := hsys
    rw [exec_sys]
    cases hclass : s.selectorClass (s.srcVal src) with
    | undefined => simp [execSys_of_undefined hclass]
    | unsupported => simp [execSys_of_unsupported hclass]
    | implemented =>
      obtain ⟨m, ⟨a, _, houtside⟩ | hfinish, _⟩ := execSys_of_implemented hclass
      · simp [houtside]
      · rw [hfinish]
        exact finishCall_ne_runEnded _ _
  · obtain ⟨t, ht, _⟩ := exec_keepsStatusOrFaults s hhalt (not_exists.1 hsys)
    simp [ht]

/-- A machine takes no further step exactly when its run has ended (R17). -/
theorem step_eq_runEnded_iff (s : State) : step s = .fault .runEnded ↔ s.status ≠ .running := by
  refine ⟨fun hended hrun => ?_, step_of_not_running⟩
  rcases step_running_cases hrun with ⟨_, _, hfetch⟩ | ⟨_, _, _, _, _, hillegal⟩ | ⟨_, i, _, _, _, hexec⟩
  · simp [hfetch] at hended
  · simp [hillegal] at hended
  · exact exec_ne_runEnded i s (hexec.symm.trans hended)

/-- Settles O25: of the ends a step can have, only HALT's is `Halted` and only an exiting SYS's is `Exited`. -/
theorem runEndsOnlyByHaltExitOrFault : Obligations.RunEndsOnlyByHaltExitOrFault := by
  unfold Obligations.RunEndsOnlyByHaltExitOrFault
  intro s t hrun hstep
  refine ⟨fun v hhalted => ?halted, fun v hexited => ?exited, fun hcur => ?halts, (step_eq_runEnded_iff t).symm⟩
  case halted =>
    rcases step_status_cases hrun hstep with (hgoes | ⟨k, hfault⟩) | ⟨hcur, hacc⟩ | ⟨src, w, _, hexited⟩
    · simp [hgoes] at hhalted
    · simp [hfault] at hhalted
    · exact ⟨hcur, Status.halted.inj (hhalted.symm.trans hacc)⟩
    · simp [hexited] at hhalted
  case exited =>
    rcases step_status_cases hrun hstep with (hgoes | ⟨k, hfault⟩) | ⟨_, hacc⟩ | ⟨src, _, hcur, _⟩
    · simp [hgoes] at hexited
    · simp [hfault] at hexited
    · simp [hacc] at hexited
    · exact ⟨src, hcur⟩
  case halts => exact status_of_exec_halt ((step_eq_exec hrun hcur).symm.trans hstep)

end Sys2Proof.Machine

/-! The decoder by format (R60, R67). A word of the R- or M-format decodes to what its opcode byte selects, a word of the A-format
to what its selector does and a branch to what its condition does; under an assignment that is `ok` no other table is in the way. -/

namespace Sys2Proof

section
variable {o : OpcodeTable} {ra : RaDecode} {w : Word}

/-! ### One listed number selects one instruction -/

theorem decode_of_mem_rOps {mk : Reg → Src → Instr} (ho : o.ok = true) (hmk : (opbField w, mk) ∈ rOps o) :
    decode o ra w = .instr (mk (Reg.ofField (rbField w)) (srcOf ra w)) := by
  obtain ⟨hnodup, hlower, _⟩ := opcodeTable_ok ho
  have hopb : opbField w ∈ o.rNumbers := List.mem_map_of_mem (f := Prod.fst) hmk
  have hmsb : w.msb = false := (msb_eq_opbField w).trans (hlower _ (List.mem_append_left _ hopb))
  have hlookup : (rOps o).lookup (opbField w) = some mk := lookup_of_mem (List.nodup_append.1 hnodup).1 hmk
  simp only [decode, hmsb, Bool.false_eq_true, if_false, decodeLower, hlookup]

theorem decode_of_mem_mOps {mk : Reg → Reg → Word → Instr} (ho : o.ok = true) (hmk : (opbField w, mk) ∈ mOps o) :
    decode o ra w = .instr (mk (Reg.ofField (rbField w)) (Reg.ofField (raField w)) (sext20 (litField w))) := by
  obtain ⟨hnodup, hlower, _⟩ := opcodeTable_ok ho
  obtain ⟨_, hnodupM, hdisjoint⟩ := List.nodup_append.1 hnodup
  have hopb : opbField w ∈ o.mNumbers := List.mem_map_of_mem (f := Prod.fst) hmk
  have hmsb : w.msb = false := (msb_eq_opbField w).trans (hlower _ (List.mem_append_right _ hopb))
  have hnotR : (rOps o).lookup (opbField w) = none := lookup_of_not_mem fun hr => hdisjoint _ hr _ hopb rfl
  have hlookup : (mOps o).lookup (opbField w) = some mk := lookup_of_mem hnodupM hmk
  simp only [decode, hmsb, Bool.false_eq_true, if_false, decodeLower, hnotR, hlookup]

theorem decode_of_mem_aOps {mk : Word → Instr} (ho : o.ok = true) (hmsb : w.msb = true) (hmk : (selField w, mk) ∈ aOps o) :
    decode o ra w = .instr (mk (zext28 (addrField w))) := by
  obtain ⟨_, _, hnodup, hseven, _⟩ := opcodeTable_ok ho
  have hsel : selField w ∈ o.aNumbers := List.mem_map_of_mem (f := Prod.fst) hmk
  have hclass : selField w ≠ 7#3 := ne_of_mem_of_not_mem hsel hseven
  have hlookup : (aOps o).lookup (selField w) = some mk := lookup_of_mem hnodup hmk
  simp only [decode, hmsb, if_true, decodeUpper, hclass, if_false, hlookup]

theorem decode_of_mem_bOps {mk : Word → Instr} (ho : o.ok = true) (hmsb : w.msb = true) (hsel : selField w = 7#3)
    (hmk : (condField w, mk) ∈ bOps o) : decode o ra w = .instr (mk (sext24 (dispField w))) := by
  obtain ⟨_, _, _, _, hnodup⟩ := opcodeTable_ok ho
  have hlookup : (bOps o).lookup (condField w) = some mk := lookup_of_mem hnodup hmk
  simp only [decode, hmsb, if_true, decodeUpper, hsel, decodeBranch, hlookup]

end

/-! ### Decoding what the encoder builds -/

section
variable {o : OpcodeTable} (ra : RaDecode) (ho : o.ok = true)
include ho

theorem decode_rWord {opb : BitVec 8} (mk : Reg → Src → Instr) (rb : BitVec 2) (low : BitVec 22) (hmk : (opb, mk) ∈ rOps o) :
    decode o ra (rWord opb rb low) = .instr (mk (Reg.ofField rb) (srcOf ra (rWord opb rb low))) := by
  rw [decode_of_mem_rOps (mk := mk) ho (by rwa [opbField_rWord]), rbField_rWord]

theorem decode_rWord_srcBits {opb : BitVec 8} (mk : Reg → Src → Instr) (rb : BitVec 2) {src : Src} (hmk : (opb, mk) ∈ rOps o)
    (hsrc : src.wf ra = true) : decode o ra (rWord opb rb (srcBits ra src)) = .instr (mk (Reg.ofField rb) src) := by
  rw [decode_rWord ra ho mk rb _ hmk, srcOf_rWord ra opb rb hsrc]

theorem decode_mWord {opb : BitVec 8} (mk : Reg → Reg → Word → Instr) (rd base : Reg) {offset : Word}
    (hmk : (opb, mk) ∈ mOps o) (hfits : fits20 offset = true) :
    decode o ra (mWord opb rd base offset) = .instr (mk rd base offset) := by
  have hopb : opbField (mWord opb rd base offset) = opb := by rw [mWord_eq_rWord, opbField_rWord]
  have hrd : rbField (mWord opb rd base offset) = rd.toField := by rw [mWord_eq_rWord, rbField_rWord]
  rw [decode_of_mem_mOps (mk := mk) ho (by rwa [hopb]), hrd, raField_mWord, litField_mWord, ofField_toField, ofField_toField,
    sext20_setWidth hfits]

theorem decode_aWord {sel : BitVec 3} (mk : Word → Instr) {target : Word} (hmk : (sel, mk) ∈ aOps o)
    (hfits : fits28 target = true) : decode o ra (aWord sel target) = .instr (mk target) := by
  rw [decode_of_mem_aOps (mk := mk) ho (msb_aWord sel target) (by rwa [selField_aWord]), addrField_aWord,
    zext28_setWidth hfits]

theorem decode_bWord {cond : BitVec 4} (mk : Word → Instr) {offset : Word} (hmk : (cond, mk) ∈ bOps o)
    (hfits : fits24 offset = true) : decode o ra (bWord cond offset) = .instr (mk offset) := by
  rw [decode_of_mem_bOps (mk := mk) ho (msb_bWord cond offset) (selField_bWord cond offset) (by rwa [condField_bWord]),
    dispField_bWord, sext24_setWidth hfits]

/-- A two-operand R-format instruction, by the table entry that is its constructor. -/
theorem decode_rWord_two {opb : BitVec 8} (mk : Reg → Src → Instr) (rb : Reg) {src : Src} (hmk : (opb, mk) ∈ rOps o)
    (hsrc : src.wf ra = true) : decode o ra (rWord opb rb.toField (srcBits ra src)) = .instr (mk rb src) := by
  rw [decode_rWord_srcBits ra ho mk _ hmk hsrc, ofField_toField]

theorem decode_encode {i : Instr} (hwf : i.wf ra = true) : decode o ra (encode o ra i) = .instr i := by
  cases i
  case mov rb src => exact decode_rWord_two ra ho .mov rb (by simp [rOps]) hwf
  case add rb src => exact decode_rWord_two ra ho .add rb (by simp [rOps]) hwf
  case sub rb src => exact decode_rWord_two ra ho .sub rb (by simp [rOps]) hwf
  case mul rb src => exact decode_rWord_two ra ho .mul rb (by simp [rOps]) hwf
  case div rb src => exact decode_rWord_two ra ho .div rb (by simp [rOps]) hwf
  case mod rb src => exact decode_rWord_two ra ho .mod rb (by simp [rOps]) hwf
  case and rb src => exact decode_rWord_two ra ho .and rb (by simp [rOps]) hwf
  case or rb src => exact decode_rWord_two ra ho .or rb (by simp [rOps]) hwf
  case shl rb src => exact decode_rWord_two ra ho .shl rb (by simp [rOps]) hwf
  case shr rb src => exact decode_rWord_two ra ho .shr rb (by simp [rOps]) hwf
  case cmp rb src => exact decode_rWord_two ra ho .cmp rb (by simp [rOps]) hwf
  case push src => exact decode_rWord_srcBits ra ho (fun _ src => .push src) 0#2 (by simp [rOps]) hwf
  case jmpR src => exact decode_rWord_srcBits ra ho (fun _ src => .jmpR src) 0#2 (by simp [rOps]) hwf
  case callR src => exact decode_rWord_srcBits ra ho (fun _ src => .callR src) 0#2 (by simp [rOps]) hwf
  case sys src => exact decode_rWord_srcBits ra ho (fun _ src => .sys src) 0#2 (by simp [rOps]) hwf
  case pop rb =>
    rw [encode, decode_rWord ra ho (fun rb _ => .pop rb) _ _ (by simp [rOps]), ofField_toField]
  case ret => exact decode_rWord ra ho (fun _ _ => .ret) 0#2 0#22 (by simp [rOps])
  case halt => exact decode_rWord ra ho (fun _ _ => .halt) 0#2 0#22 (by simp [rOps])
  case movLd rd base offset => exact decode_mWord ra ho .movLd rd base (by simp [mOps]) hwf
  case movSt rd base offset => exact decode_mWord ra ho .movSt rd base (by simp [mOps]) hwf
  case ladM rd base offset => exact decode_mWord ra ho .ladM rd base (by simp [mOps]) hwf
  case ladA target => exact decode_aWord ra ho .ladA (by simp [aOps]) hwf
  case jmpA target => exact decode_aWord ra ho .jmpA (by simp [aOps]) hwf
  case callA target => exact decode_aWord ra ho .callA (by simp [aOps]) hwf
  case movLda target => exact decode_aWord ra ho .movLda (by simp [aOps]) hwf
  case movSta target => exact decode_aWord ra ho .movSta (by simp [aOps]) hwf
  case beq offset => exact decode_bWord ra ho .beq (by simp [bOps]) hwf
  case bne offset => exact decode_bWord ra ho .bne (by simp [bOps]) hwf
  case blt offset => exact decode_bWord ra ho .blt (by simp [bOps]) hwf
  case ble offset => exact decode_bWord ra ho .ble (by simp [bOps]) hwf
  case bgt offset => exact decode_bWord ra ho .bgt (by simp [bOps]) hwf
  case bge offset => exact decode_bWord ra ho .bge (by simp [bOps]) hwf

end

/-- Settles O1: the encoder's word reads back field by field, and HALT's ignored bits give two words for one instruction. -/
theorem decodeEncodeRoundTrip : Obligations.DecodeEncodeRoundTrip := by
  unfold Obligations.DecodeEncodeRoundTrip
  refine ⟨fun o ra i ho hwf => decode_encode ra ho hwf, ?standard, 0x16000000#32, 0x16FFFFFF#32, ?differ, .halt, ?first, ?second⟩
  case standard => decide
  case differ => decide
  case first => decide
  case second => decide

/-! ### Legality of what is decoded -/

theorem fits20_sext20 (v : BitVec 20) : fits20 (sext20 v) = true := by
  obtain ⟨hlow, hhigh⟩ := toInt_sext20_mem_range v
  simp [fits20, hlow, hhigh]

theorem fits24_sext24 (v : BitVec 24) : fits24 (sext24 v) = true := by
  have hlow : -2 ^ 23 ≤ v.toInt := BitVec.le_toInt v
  have hhigh : v.toInt < 2 ^ 23 := BitVec.toInt_lt
  simp only [fits24, toInt_sext24, Bool.and_eq_true, decide_eq_true_eq]
  omega

theorem fits28_zext28 (v : BitVec 28) : fits28 (zext28 v) = true := by
  have hlt := v.isLt
  simp only [fits28, zext28, BitVec.toNat_setWidth, decide_eq_true_eq]
  omega

/-- Under the spec's reading the field that names the register is the flag, and the flag value 3 is the immediate mode. -/
theorem srcOf_wf (ra : RaDecode) (w : Word) : (srcOf ra w).wf ra = true := by
  rw [srcOf]
  split
  case isTrue => exact fits20_sext20 (litField w)
  case isFalse hflag =>
    cases ra with
    | belowFlag => cases hreg : Reg.ofField (sourceField .belowFlag w) <;> simp [Src.wf]
    | flagField =>
      have hsec : Reg.ofField (raField w) ≠ .sec := fun h => hflag (by rw [← toField_ofField (raField w), h]; rfl)
      rw [sourceField]
      cases hreg : Reg.ofField (raField w)
      case sec => exact absurd hreg hsec
      all_goals rfl

theorem mem_of_lookup_eq_some {α β : Type} [DecidableEq α] {l : List (α × β)} {a : α} {b : β} (h : l.lookup a = some b) :
    (a, b) ∈ l := by
  obtain ⟨l₁, l₂, rfl, _⟩ := List.lookup_eq_some_iff.1 h
  simp

/-! An instruction of a table is legal where its operand is. -/

section
variable (o : OpcodeTable) (ra : RaDecode)

theorem wf_of_mem_rOps : ∀ c ∈ rOps o, ∀ (rb : Reg) {src : Src}, src.wf ra = true → (c.2 rb src).wf ra = true := by
  simp [rOps, Instr.wf]

theorem wf_of_mem_mOps :
    ∀ c ∈ mOps o, ∀ (rd base : Reg) {offset : Word}, fits20 offset = true → (c.2 rd base offset).wf ra = true := by
  simp [mOps, Instr.wf]

theorem wf_of_mem_aOps : ∀ c ∈ aOps o, ∀ {target : Word}, fits28 target = true → (c.2 target).wf ra = true := by
  simp [aOps, Instr.wf]

theorem wf_of_mem_bOps : ∀ c ∈ bOps o, ∀ {offset : Word}, fits24 offset = true → (c.2 offset).wf ra = true := by
  simp [bOps, Instr.wf]

variable {o ra} {w : Word} {i : Instr}

theorem wf_of_decodeLower (h : decodeLower o ra w = .instr i) : i.wf ra = true := by
  rw [decodeLower] at h
  split at h
  case h_1 mk hlookup =>
    cases h
    exact wf_of_mem_rOps o ra _ (mem_of_lookup_eq_some hlookup) _ (srcOf_wf ra w)
  case h_2 =>
    split at h
    case h_1 mk hlookup =>
      cases h
      exact wf_of_mem_mOps o ra _ (mem_of_lookup_eq_some hlookup) _ _ (fits20_sext20 _)
    case h_2 => cases h

theorem wf_of_decodeBranch (h : decodeBranch o w = .instr i) : i.wf ra = true := by
  rw [decodeBranch] at h
  split at h
  case h_1 mk hlookup =>
    cases h
    exact wf_of_mem_bOps o ra _ (mem_of_lookup_eq_some hlookup) (fits24_sext24 _)
  case h_2 => cases h

theorem wf_of_decodeUpper (h : decodeUpper o w = .instr i) : i.wf ra = true := by
  rw [decodeUpper] at h
  split at h
  case isTrue => exact wf_of_decodeBranch h
  case isFalse =>
    split at h
    case h_1 mk hlookup =>
      cases h
      exact wf_of_mem_aOps o ra _ (mem_of_lookup_eq_some hlookup) (fits28_zext28 _)
    case h_2 => cases h

end

/-- Settles O3: each table of the decoder makes an instruction from a field that holds only legal operands. -/
theorem decodedInstructionsAreWellFormed : Obligations.DecodedInstructionsAreWellFormed := by
  unfold Obligations.DecodedInstructionsAreWellFormed
  intro o ra w i h
  rw [decode] at h
  split at h
  case isTrue => exact wf_of_decodeUpper h
  case isFalse => exact wf_of_decodeLower h

/-! ### The opcode bytes of the spec's own assignment that select nothing -/

/-- The listed groups of R65, as the top byte of a word. -/
def IllegalOpcodeByte (b : Nat) : Prop :=
  b = 0x00 ∨ (0x0C ≤ b ∧ b ≤ 0x0F) ∨ (0x17 ≤ b ∧ b ≤ 0x1F) ∨ (0x23 ≤ b ∧ b ≤ 0x7F) ∨
    (0xD0 ≤ b ∧ b ≤ 0xDF) ∨ (0xE0 ≤ b ∧ b ≤ 0xEF) ∨ 0xF6 ≤ b

theorem unassigned_standard_iff (opb : BitVec 8) : OpcodeTable.standard.Unassigned opb ↔ IllegalOpcodeByte opb.toNat := by
  unfold OpcodeTable.Unassigned IllegalOpcodeByte
  revert opb
  decide

theorem toNat_opbField (w : Word) : (opbField w).toNat = w.toNat / 2 ^ 24 := by
  have hlt := w.isLt
  rw [opbField_eq_div, BitVec.toNat_ofNat]
  omega

/-- Settles O4: the decoder's answer hangs on the opcode byte alone, of which there are 256. -/
theorem illegalWordsExactly : Obligations.IllegalWordsExactly := by
  unfold Obligations.IllegalWordsExactly
  intro ra w
  rw [decode_illegal_iff, unassigned_standard_iff, toNat_opbField]
  exact exists_eq_left.symm

/-! ### Ignored bits -/

theorem lowRaField_eq_litField (w : Word) : lowRaField w = (litField w).extractLsb' 18 2 := by
  apply BitVec.eq_of_getLsbD_eq
  intro i hi
  simp only [lowRaField, litField, BitVec.getLsbD_extractLsb', hi, decide_true, Bool.true_and, show 18 + i < 20 by omega,
    Nat.zero_add]

section
variable {o : OpcodeTable} {ra : RaDecode} {w w' : Word}

/-- Under either reading the source operand is a function of the flag and the literal field. -/
theorem srcOf_congr (hflag : raField w = raField w') (hlit : litField w = litField w') : srcOf ra w = srcOf ra w' := by
  have hsource : sourceField ra w = sourceField ra w' := by
    cases ra with
    | flagField => exact hflag
    | belowFlag => rw [sourceField, sourceField, lowRaField_eq_litField, lowRaField_eq_litField, hlit]
  rw [srcOf, srcOf, hflag, hlit, hsource]

/-- In register mode only the bits in which the register is read matter. -/
theorem srcOf_congr_reg (h : raField w ≠ 3#2) (h' : raField w' ≠ 3#2) (hsource : sourceField ra w = sourceField ra w') :
    srcOf ra w = srcOf ra w' := by
  rw [srcOf, srcOf, if_neg h, if_neg h', hsource]

/-- Two words with one R-format opcode decode alike where the instruction does not tell their operands apart. -/
theorem decode_congr_rOps {mk : Reg → Src → Instr} (ho : o.ok = true) (hopb : opbField w = opbField w')
    (hmk : (opbField w, mk) ∈ rOps o)
    (hargs : mk (Reg.ofField (rbField w)) (srcOf ra w) = mk (Reg.ofField (rbField w')) (srcOf ra w')) :
    decode o ra w = decode o ra w' := by
  rw [decode_of_mem_rOps ho hmk, decode_of_mem_rOps ho (hopb ▸ hmk), hargs]

/-- PUSH, JMP.r, CALL.r and SYS have no destination field. -/
theorem exists_mem_rOps_source_only {opb : BitVec 8} (h : opb ∈ [o.push, o.jmpR, o.callR, o.sys]) :
    ∃ mk : Src → Instr, (opb, fun (_ : Reg) (src : Src) => mk src) ∈ rOps o := by
  simp only [List.mem_cons, List.not_mem_nil, or_false] at h
  obtain rfl | rfl | rfl | rfl := h
  · exact ⟨.push, by simp [rOps]⟩
  · exact ⟨.jmpR, by simp [rOps]⟩
  · exact ⟨.callR, by simp [rOps]⟩
  · exact ⟨.sys, by simp [rOps]⟩

/-- RET and HALT have no operand. -/
theorem exists_mem_rOps_no_operand {opb : BitVec 8} (h : opb ∈ [o.ret, o.halt]) :
    ∃ i : Instr, (opb, fun (_ : Reg) (_ : Src) => i) ∈ rOps o := by
  simp only [List.mem_cons, List.not_mem_nil, or_false] at h
  obtain rfl | rfl := h
  · exact ⟨.ret, by simp [rOps]⟩
  · exact ⟨.halt, by simp [rOps]⟩

end

/-- Settles O5: one clause for each row of R66, by the operands that the entries of the R-format table keep. -/
theorem unusedBitsAreIgnored : Obligations.UnusedBitsAreIgnored := by
  unfold Obligations.UnusedBitsAreIgnored
  intro o ra w w' ho hopb
  refine ⟨fun hmem hrb hreg hreg' hflag hlow => ?registerMode, fun hmem hflag hlit => ?sourceOnly, fun hpop hrb => ?pop,
    fun hmem => ?noOperand⟩
  case registerMode =>
    rw [← map_fst_rOps] at hmem
    obtain ⟨⟨_, mk⟩, hmk, rfl⟩ := List.mem_map.1 hmem
    have hsource : sourceField ra w = sourceField ra w' := by
      cases ra with
      | flagField => exact hflag rfl
      | belowFlag => exact hlow rfl
    exact decode_congr_rOps ho hopb hmk (by rw [hrb, srcOf_congr_reg hreg hreg' hsource])
  case sourceOnly =>
    obtain ⟨mk, hmk⟩ := exists_mem_rOps_source_only hmem
    exact decode_congr_rOps ho hopb hmk (by rw [srcOf_congr hflag hlit])
  case pop =>
    have hmk : (opbField w, fun (rb : Reg) (_ : Src) => Instr.pop rb) ∈ rOps o := by simp [rOps, hpop]
    exact decode_congr_rOps ho hopb hmk (by rw [hrb])
  case noOperand =>
    obtain ⟨i, hmk⟩ := exists_mem_rOps_no_operand hmem
    exact decode_congr_rOps ho hopb hmk rfl

/-- Settles O6: each word is evaluated by the decoder. -/
theorem decodesSampleWords : Obligations.DecodesSampleWords := by
  unfold Obligations.DecodesSampleWords
  decide

end Sys2Proof

/-! The remaining results of arithmetic and logic (R124 to R134). What an operation changes is `aluOp_writesOnly`; here are the words the
operations compute, as reductions modulo 2^32 of integers. -/

namespace Sys2Proof

theorem wrap32_toNat_mul_toNat (a b : Word) : wrap32 (a.toNat * b.toNat) = a * b := by
  rw [wrap32_mul, wrap32_toNat, wrap32_toNat]

theorem shiftLeft_eq_wrap32 (a : Word) (k : Nat) : a <<< k = wrap32 (a.toNat * 2 ^ k) := by
  rw [show ((a.toNat : Int) * 2 ^ k) = ((a.toNat * 2 ^ k : Nat) : Int) by push_cast; rfl, wrap32_natCast]
  apply BitVec.eq_of_toNat_eq
  rw [BitVec.toNat_shiftLeft, Nat.shiftLeft_eq, BitVec.toNat_ofNat]

theorem ushiftRight_eq_wrap32 (a : Word) (k : Nat) : a >>> k = wrap32 (a.toNat / 2 ^ k) := by
  rw [show ((a.toNat : Int) / 2 ^ k) = ((a.toNat / 2 ^ k : Nat) : Int) by push_cast; rfl, wrap32_natCast]
  apply BitVec.eq_of_toNat_eq
  have hlt : a.toNat / 2 ^ k < 2 ^ 32 := Nat.lt_of_le_of_lt (Nat.div_le_self ..) a.isLt
  rw [BitVec.toNat_ushiftRight, Nat.shiftRight_eq_div_pow, BitVec.toNat_ofNat, Nat.mod_eq_of_lt hlt]

theorem sdiv_eq_wrap32 (a b : Word) : a.sdiv b = wrap32 (a.toInt.tdiv b.toInt) := by
  apply BitVec.eq_of_toInt_eq
  rw [BitVec.toInt_sdiv, wrap32, BitVec.toInt_ofInt]

/-- The remainder of a truncating division needs no reduction. -/
theorem srem_eq_wrap32 (a b : Word) : a.srem b = wrap32 (a.toInt - b.toInt * a.toInt.tdiv b.toInt) := by
  rw [← Int.tmod_def, ← BitVec.toInt_srem, wrap32_toInt]

end Sys2Proof

namespace Sys2Proof.Machine

/-! ### MUL and AND -/

/-- Settles O27: each operation is an `aluOp` with the product and the bitwise and. -/
theorem mulAndResults : Obligations.MulAndResults := by
  unfold Obligations.MulAndResults
  intro rb src s
  refine ⟨⟨_, exec_mul rb src s, ?mul⟩, ⟨_, s.reg rb &&& s.srcVal src, exec_and rb src s, ?and, ?andBits⟩⟩
  case mul =>
    rw [wrap32_toNat_mul_toNat]
    exact aluOp_writesOnly (fun a b => a * b) rb src s
  case and => exact aluOp_writesOnly (fun a b => a &&& b) rb src s
  case andBits => exact fun _ => BitVec.getLsbD_and

/-! ### Shifts -/

theorem shiftCount_eq_mod (b : Word) : shiftCount b = b.toNat % 32 := by
  simp [shiftCount, BitVec.extractLsb'_toNat]

/-- SHL by the law of the spec, and under any law by a count of 0 to 31. -/
theorem shiftLeft_of_law {law : ShiftLaw} (a : Word) {b : Word} (h : law = .modulo32 ∨ b.toNat < 32) :
    shiftLeft law a b = wrap32 (a.toNat * 2 ^ (b.toNat % 32)) := by
  rw [← shiftLeft_eq_wrap32]
  obtain rfl | hlt := h
  · rw [shiftLeft, shiftCount_eq_mod]
  · rw [shiftLeft_of_lt law a hlt, Nat.mod_eq_of_lt hlt]

theorem shiftRight_modulo32 (a b : Word) : shiftRight .modulo32 a b = wrap32 (a.toNat / 2 ^ (b.toNat % 32)) := by
  rw [← ushiftRight_eq_wrap32, shiftRight, shiftCount_eq_mod]

/-- Settles O28: both shifts are an `aluOp`, and the laws agree on the bits that a count of 0 to 31 moves. -/
theorem shiftResults : Obligations.ShiftResults := by
  unfold Obligations.ShiftResults
  intro rb src s
  refine ⟨⟨_, _, exec_shl rb src s, aluOp_writesOnly _ rb src s, ?left⟩,
    ⟨_, _, exec_shr rb src s, aluOp_writesOnly _ rb src s, ?right, ?movedBits⟩⟩
  case left => exact shiftLeft_of_law _
  case right =>
    intro hlaw
    rw [hlaw]
    exact shiftRight_modulo32 _ _
  case movedBits => exact fun _ k => getLsbD_shiftRight_of_lt _ _

/-! ### CMP -/

theorem compareSigned_of_lt {a b : Word} (h : a.toInt < b.toInt) : compareSigned a b = wrap32 (-1) := by
  rw [compareSigned, if_pos h]
  rfl

theorem compareSigned_of_eq {a b : Word} (h : a.toInt = b.toInt) : compareSigned a b = 0#32 := by
  rw [compareSigned, if_neg (by omega), if_pos h]

theorem compareSigned_of_gt {a b : Word} (h : b.toInt < a.toInt) : compareSigned a b = 1#32 := by
  rw [compareSigned, if_neg (by omega), if_neg (by omega)]

/-- Settles O29: by the three relations of signed numbers. -/
theorem compareResult : Obligations.CompareResult := by
  unfold Obligations.CompareResult
  intro rb src s
  exact ⟨_, _, exec_cmp rb src s, aluOp_writesOnly compareSigned rb src s, compareSigned_of_lt, compareSigned_of_eq,
    compareSigned_of_gt⟩

/-! ### DIV and MOD -/

theorem divideOp_writesOnly (f : Word → Word → Word) (rb : Reg) {src : Src} {s : State} (hne : s.srcVal src ≠ 0#32) :
    s.WritesOnly (divideOp f rb src s) rb (f (s.reg rb) (s.srcVal src)) := by
  rw [divideOp_of_ne_zero f rb hne]
  exact aluOp_writesOnly f rb src s

/-- Settles O30: DIV and MOD by a divisor that is not 0 are an `aluOp`, with the truncating quotient and its remainder. -/
theorem divModResults : Obligations.DivModResults := by
  unfold Obligations.DivModResults
  intro rb src s hne
  refine ⟨⟨_, _, exec_div rb src s, divideOp_writesOnly _ rb hne, ?quotient⟩,
    ⟨_, _, exec_mod rb src s, divideOp_writesOnly _ rb hne, ?remainder⟩⟩
  case quotient =>
    intro hlaw
    rw [quotient_of_law hlaw, sdiv_eq_wrap32]
  case remainder =>
    intro hlaw
    rw [remainder_of_law hlaw, srem_eq_wrap32]

theorem sdiv_mul_add_srem (a b : Word) : a.sdiv b * b + a.srem b = a := by
  rw [sdiv_eq_wrap32, srem_eq_wrap32, wrap32_sub, wrap32_mul, wrap32_toInt, wrap32_toInt]
  ring

theorem abs_toInt_srem_lt (a : Word) {b : Word} (hne : b ≠ 0#32) : |(a.srem b).toInt| < |b.toInt| := by
  have hpos : 0 < b.toInt.natAbs := Int.natAbs_pos.2 fun h => hne (BitVec.eq_of_toInt_eq h)
  have hlt : a.toInt.natAbs % b.toInt.natAbs < b.toInt.natAbs := Nat.mod_lt _ hpos
  rw [BitVec.toInt_srem, Int.abs_eq_natAbs, Int.abs_eq_natAbs, Int.natAbs_tmod]
  exact_mod_cast hlt

theorem toInt_srem_neg_iff (a b : Word) : a.srem b = 0#32 ∨ ((a.srem b).toInt < 0 ↔ a.toInt < 0) := by
  have hsign := Int.sign_tmod a.toInt b.toInt
  rw [← BitVec.toInt_srem] at hsign
  split at hsign
  case isTrue => exact .inl (BitVec.eq_of_toInt_eq (Int.sign_eq_zero_iff_zero.1 hsign))
  case isFalse => exact .inr (by rw [← Int.sign_eq_neg_one_iff_neg, hsign, Int.sign_eq_neg_one_iff_neg])

/-- Settles O32: the three identities are those of the truncating quotient and remainder. -/
theorem divModIdentities : Obligations.DivModIdentities := by
  unfold Obligations.DivModIdentities
  intro rb src s hne hlaw
  have hdiv := (divideOp_writesOnly (quotient s.cfg.divLaw) rb hne).written
  have hmod := (divideOp_writesOnly (remainder s.cfg.divLaw) rb hne).written
  rw [quotient_of_law hlaw] at hdiv
  rw [remainder_of_law hlaw] at hmod
  refine ⟨_, _, exec_div rb src s, exec_mod rb src s, ?_⟩
  rw [hdiv, hmod]
  exact ⟨sdiv_mul_add_srem _ _, abs_toInt_srem_lt _ hne, toInt_srem_neg_iff _ _⟩

/-! ### Address loads -/

theorem exec_ladA (target : Word) (s : State) : exec (.ladA target) s = .next (s.advance.setReg .acc target) := rfl

theorem exec_ladM (rd base : Reg) (offset : Word) (s : State) :
    exec (.ladM rd base offset) s = .next (s.advance.setReg rd (s.effAddr base offset)) := rfl

theorem effAddr_zero (s : State) (base : Reg) : s.effAddr base 0#32 = s.reg base := BitVec.add_zero _

/-- Settles O33: both forms are one register write after the advance of pc. -/
theorem loadAddressResults : Obligations.LoadAddressResults := by
  unfold Obligations.LoadAddressResults
  intro rd base offset target s
  refine ⟨⟨_, exec_ladA target s, advance_setReg_writesOnly .acc target s⟩, ⟨_, exec_ladM rd base offset s, ?sum⟩,
    ⟨_, exec_ladM rd base 0#32 s, ?copy⟩⟩
  case sum =>
    rw [← effAddr_eq_wrap32]
    exact advance_setReg_writesOnly rd _ s
  case copy =>
    rw [effAddr_zero]
    exact advance_setReg_writesOnly rd _ s

end Sys2Proof.Machine

/-! Stores, the step, POP, JMP.r, RET and the branches (R80, R81, R101 to R113, R142, R152 to R154): what each leaves in every field
where it completes, and the fault where an access is outside memory. -/

namespace Sys2Proof.Machine

/-! ### Stores and absolute addresses -/

/-- A store into memory writes one word and advances pc. -/
theorem storeFrom_stores (rd : Reg) {ea : Word} {s : State} (h : s.inRange ea = true) :
    s.StoresOnly (storeFrom rd ea s) ea.toNat (s.reg rd) ∧ (∀ q, (storeFrom rd ea s).reg q = s.reg q) ∧
      (storeFrom rd ea s).pc = s.pc + 1#32 ∧ s.SameRest (storeFrom rd ea s) := by
  rw [storeFrom_of_inRange rd h]
  refine ⟨storesOnly_congr (by simp) (by simp) (writeWord_storesOnly s _ _), fun q => by simp, by simp, ?rest⟩
  case rest => constructor <;> simp

theorem storeFrom_takesMemFault (rd : Reg) {ea : Word} {s : State} (h : s.inRange ea = false) :
    s.TakesMemFault (storeFrom rd ea s) ea := by
  rw [storeFrom_of_not_inRange rd h]
  exact raiseMem_takesMemFault s ea

theorem exec_movSt (rd base : Reg) (offset : Word) (s : State) :
    exec (.movSt rd base offset) s = .next (storeFrom rd (s.effAddr base offset) s) := rfl

theorem exec_movLda (target : Word) (s : State) : exec (.movLda target) s = .next (loadInto .acc target s) := rfl

theorem exec_movSta (target : Word) (s : State) : exec (.movSta target) s = .next (storeFrom .acc target s) := rfl

/-- Settles O39: MOV.st is `storeFrom` at the effective address, split by whether that address is in memory. -/
theorem storeRegisterResult : Obligations.StoreRegisterResult := by
  unfold Obligations.StoreRegisterResult
  intro rd base offset s
  exact ⟨fun hin => ⟨_, exec_movSt rd base offset s, storeFrom_stores rd hin⟩,
    fun hout => ⟨_, exec_movSt rd base offset s, storeFrom_takesMemFault rd hout⟩⟩

/-- Settles O40: the absolute forms are `loadInto` and `storeFrom` of the accumulator. -/
theorem absoluteLoadStoreResults : Obligations.AbsoluteLoadStoreResults := by
  unfold Obligations.AbsoluteLoadStoreResults
  intro target s
  refine ⟨fun hin => ⟨⟨_, exec_movLda target s, ?loads⟩, ⟨_, exec_movSta target s, ?stores⟩⟩, fun hout => ?faults⟩
  case loads => exact loadInto_writesOnly .acc hin
  case stores => exact storeFrom_stores .acc hin
  case faults =>
    simp only [List.forall_mem_cons]
    exact ⟨⟨_, exec_movLda target s, loadInto_takesMemFault .acc hout⟩,
      ⟨_, exec_movSta target s, storeFrom_takesMemFault .acc hout⟩, List.forall_mem_nil _⟩

/-! ### The step -/

theorem step_of_instr {s : State} {i : Instr} (hrun : s.status = .running) (hpc : s.inRange s.pc = true)
    (hinstr : decode s.cfg.opc s.cfg.raDecode (s.readWord s.pc.toNat) = .instr i) : step s = exec i s := by
  simp only [step, hrun, fetch_of_inRange hpc, hinstr]

/-- Settles O7: the fetch of a pc in memory answers the word there. -/
theorem stepRunsDecodedInstruction : Obligations.StepRunsDecodedInstruction := by
  unfold Obligations.StepRunsDecodedInstruction
  exact fun s i hrun hpc hinstr => step_of_instr hrun hpc hinstr

/-- Settles O8: the fetch raises before pc is advanced. -/
theorem fetchOutsideMemoryFaults : Obligations.FetchOutsideMemoryFaults := by
  unfold Obligations.FetchOutsideMemoryFaults
  exact fun s hrun hpc => ⟨_, step_of_pc_outside hrun (not_inRange_iff.2 hpc), fetchFault_takesMemFault s⟩

/-- Settles O12: the store did not fault, since its next state is running, so the word fetched is the one it stored. -/
theorem storeIsSeenByNextFetch : Obligations.StoreIsSeenByNextFetch := by
  unfold Obligations.StoreIsSeenByNextFetch
  intro s t rd base offset i hexec hrun hpc hinstr
  cases (exec_movSt rd base offset s).symm.trans hexec
  cases hin : s.inRange (s.effAddr base offset) with
  | false => cases hrun.symm.trans (storeFrom_takesMemFault rd hin).fault.status
  | true =>
    obtain ⟨hstores, _, _, hrest⟩ := storeFrom_stores rd hin
    refine step_of_instr hrun ?_ ?_
    · rw [inRange_congr hrest.cfg, hpc, hin]
    · rw [hpc, hstores.stored, hrest.cfg, hinstr]

/-! ### POP -/

theorem exec_pop (rb : Reg) (s : State) : exec (.pop rb) s = execPop rb s := rfl

/-- The writes of POP: the stack pointer one higher, then the destination. -/
def popWrites (rb : Reg) (s : State) : State :=
  (s.advance.setReg .sp (s.reg .sp + 1#32)).setReg rb (s.readWord (s.reg .sp + 1#32).toNat)

theorem exec_pop_of_inRange (rb : Reg) {s : State} (h : s.inRange (s.reg .sp + 1#32) = true) :
    exec (.pop rb) s = .next (popWrites rb s) := by
  rw [exec_pop, execPop_of_inRange rb h, popWrites]

theorem exec_pop_of_not_inRange (rb : Reg) {s : State} (h : s.inRange (s.reg .sp + 1#32) = false) :
    exec (.pop rb) s = .next (s.advance.raiseMem s.pc (s.reg .sp + 1#32)) := by
  rw [exec_pop, execPop_of_not_inRange rb h]

section
variable (rb : Reg) (s : State)

@[simp] theorem reg_popWrites_same : (popWrites rb s).reg rb = s.readWord (s.reg .sp + 1#32).toNat := reg_setReg_same ..

theorem reg_popWrites_sp {rb : Reg} (h : rb ≠ .sp) : (popWrites rb s).reg .sp = s.reg .sp + 1#32 := by
  rw [popWrites, reg_setReg_ne _ _ _ _ h.symm, reg_setReg_same]

theorem reg_popWrites_ne {q : Reg} (hsp : q ≠ .sp) (hrb : q ≠ rb) : (popWrites rb s).reg q = s.reg q := by
  rw [popWrites, reg_setReg_ne _ _ _ _ hrb, reg_setReg_ne _ _ _ _ hsp, reg_advance]

@[simp] theorem popWrites_pc : (popWrites rb s).pc = s.pc + 1#32 := by simp [popWrites]

@[simp] theorem popWrites_mem : (popWrites rb s).mem = s.mem := by simp [popWrites]

theorem popWrites_sameRest : s.SameRest (popWrites rb s) := by
  constructor <;> simp [popWrites]

end

/-- Settles O36: one case of POP for each clause, by whether the slot above x[0] is in memory. -/
theorem popResult : Obligations.PopResult := by
  unfold Obligations.PopResult
  intro rb s
  refine ⟨fun hin => ⟨_, exec_pop_of_inRange rb hin, ?pops⟩, fun hout => ⟨_, exec_pop_of_not_inRange rb hout, ?faults⟩⟩
  case pops =>
    exact ⟨reg_popWrites_same rb s, fun h => reg_popWrites_sp s h, fun _ => reg_popWrites_ne rb s, popWrites_pc rb s,
      popWrites_mem rb s, popWrites_sameRest rb s⟩
  case faults => exact raiseMem_takesMemFault s _

/-! ### Jumps and calls through an operand -/

theorem exec_jmpR (src : Src) (s : State) : exec (.jmpR src) s = .next (s.advance.setPc (s.srcVal src)) := rfl

/-- Settles O42: the advanced pc is overwritten by the operand. -/
theorem jumpRegisterResult : Obligations.JumpRegisterResult := by
  unfold Obligations.JumpRegisterResult
  intro src s
  exact ⟨_, exec_jmpR src s, setPc_transfersOnly s (s.srcVal src)⟩

theorem exec_callR (src : Src) (s : State) : exec (.callR src) s = .next (callTo (s.srcVal src) s) := rfl

/-- Settles O45: both forms run `callTo`, to the target that the operand names before any write. -/
theorem callRegisterResult : Obligations.CallRegisterResult := by
  unfold Obligations.CallRegisterResult
  intro src s
  exact ⟨⟨_, exec_callR src s, exec_callA (s.srcVal src) s⟩,
    fun hfirst hsecond => ⟨_, exec_callR src s, callTo_links (s.srcVal src) hfirst hsecond⟩⟩

/-! ### RET -/

theorem exec_ret (s : State) : exec .ret s = execRet s := rfl

/-- The writes of RET: the stack pointer above the return address, the saved frame pointer and the transfer. -/
def retWrites (s : State) : State :=
  ((s.setReg .sp (s.reg .fp + 1#32)).setReg .fp (s.readWord (s.reg .fp + 1#32).toNat)).setPc (s.readWord (s.reg .fp).toNat)

theorem exec_ret_of_inRange {s : State} (hfirst : s.inRange (s.reg .fp) = true)
    (hsecond : s.inRange (s.reg .fp + 1#32) = true) : exec .ret s = .next (retWrites s) := by
  rw [exec_ret, execRet_completes hfirst hsecond, retWrites]

section
variable (s : State)

@[simp] theorem retWrites_pc : (retWrites s).pc = s.readWord (s.reg .fp).toNat := rfl
@[simp] theorem reg_retWrites_sp : (retWrites s).reg .sp = s.reg .fp + 1#32 := rfl
@[simp] theorem reg_retWrites_fp : (retWrites s).reg .fp = s.readWord (s.reg .fp + 1#32).toNat := rfl
@[simp] theorem reg_retWrites_acc : (retWrites s).reg .acc = s.reg .acc := rfl
@[simp] theorem reg_retWrites_sec : (retWrites s).reg .sec = s.reg .sec := rfl
@[simp] theorem retWrites_mem : (retWrites s).mem = s.mem := rfl

theorem retWrites_sameRest : s.SameRest (retWrites s) := by
  constructor <;> simp [retWrites]

end

/-- Settles O46: one case of RET for each clause, by which of the two slots is the first outside memory. -/
theorem returnResult : Obligations.ReturnResult := by
  unfold Obligations.ReturnResult
  intro s
  refine ⟨fun hfirst hsecond => ⟨_, exec_ret_of_inRange hfirst hsecond, ?returns⟩,
    fun hfirst => ⟨_, execRet_first_faults hfirst, raiseMem_takesMemFault s _⟩,
    fun hfirst hsecond => ⟨_, execRet_second_faults hfirst hsecond, ?fault, ?sp, ?others, ?mem⟩⟩
  case returns => exact ⟨by simp, by simp, by simp, by simp, by simp, by simp, retWrites_sameRest s⟩
  case fault => constructor <;> simp
  case sp => simp
  case others =>
    intro q hq
    rw [reg_raiseMem, reg_setReg_ne _ _ _ _ hq]
  case mem => simp

/-! ### Branches -/

/-- A branch under a condition stated of the accumulator. -/
theorem branchIf_transfersOnly_ite {cond : Word → Bool} {P : Prop} [Decidable P] {s : State} (offset : Word)
    (hcond : cond (s.reg .acc) = true ↔ P) :
    s.TransfersOnly (branchIf cond offset s) (if P then s.pc + 1#32 + offset else s.pc + 1#32) := by
  have h := branchIf_transfersOnly cond offset s
  simpa only [hcond] using h

section
variable {v : Word}

theorem condEq_iff : condEq v = true ↔ v = 0#32 := decide_eq_true_iff
theorem condNe_iff : condNe v = true ↔ v ≠ 0#32 := decide_eq_true_iff
theorem condLt_iff : condLt v = true ↔ v.toInt < 0 := decide_eq_true_iff
theorem condLe_iff : condLe v = true ↔ v.toInt ≤ 0 := decide_eq_true_iff
theorem condGt_iff : condGt v = true ↔ 0 < v.toInt := decide_eq_true_iff
theorem condGe_iff : condGe v = true ↔ 0 ≤ v.toInt := decide_eq_true_iff

theorem toInt_eq_zero_iff : v.toInt = 0 ↔ v = 0#32 := by
  rw [← BitVec.toInt_inj, BitVec.toInt_zero]

theorem msb_iff_toInt_neg : v.msb = true ↔ v.toInt < 0 := by
  rw [BitVec.msb_eq_toInt, decide_eq_true_iff]

theorem condLt_iff_msb : condLt v = true ↔ v.msb = true := condLt_iff.trans msb_iff_toInt_neg.symm

theorem condLe_iff_msb : condLe v = true ↔ v = 0#32 ∨ v.msb = true := by
  rw [condLe_iff, ← toInt_eq_zero_iff, msb_iff_toInt_neg]
  omega

theorem condGt_iff_msb : condGt v = true ↔ v ≠ 0#32 ∧ v.msb = false := by
  rw [condGt_iff, ne_eq, ← toInt_eq_zero_iff, ← Bool.not_eq_true, msb_iff_toInt_neg]
  omega

theorem condGe_iff_msb : condGe v = true ↔ v.msb = false := by
  rw [condGe_iff, ← Bool.not_eq_true, msb_iff_toInt_neg]
  omega

end

section
variable (offset : Word) (s : State)

theorem exec_beq : exec (.beq offset) s = .next (branchIf condEq offset s) := rfl
theorem exec_bne : exec (.bne offset) s = .next (branchIf condNe offset s) := rfl
theorem exec_blt : exec (.blt offset) s = .next (branchIf condLt offset s) := rfl
theorem exec_ble : exec (.ble offset) s = .next (branchIf condLe offset s) := rfl
theorem exec_bgt : exec (.bgt offset) s = .next (branchIf condGt offset s) := rfl
theorem exec_bge : exec (.bge offset) s = .next (branchIf condGe offset s) := rfl

end

/-- Settles O50: the six conditions by the sign bit and by being zero. -/
theorem branchResults : Obligations.BranchResults := by
  unfold Obligations.BranchResults
  intro offset s
  simp only [wrap32_toInt_add_toInt]
  refine ⟨⟨_, exec_beq offset s, branchIf_transfersOnly_ite offset condEq_iff⟩, ⟨_, exec_bne offset s, ?bne⟩,
    ⟨_, exec_blt offset s, branchIf_transfersOnly_ite offset condLt_iff_msb⟩,
    ⟨_, exec_ble offset s, branchIf_transfersOnly_ite offset condLe_iff_msb⟩,
    ⟨_, exec_bgt offset s, branchIf_transfersOnly_ite offset condGt_iff_msb⟩,
    ⟨_, exec_bge offset s, branchIf_transfersOnly_ite offset condGe_iff_msb⟩⟩
  case bne =>
    have h := branchIf_transfersOnly_ite (s := s) offset condNe_iff
    rwa [ite_not] at h

end Sys2Proof.Machine

/-! SYS and HALT (R160, R161, R164): what an answered call leaves in every field, by the ending of the performance. -/

namespace Sys2Proof.Machine

/-! ### SYS -/

/-- A call whose first access outside memory comes after accesses in memory faults at it. -/
theorem execSys_of_outside {src : Src} {s : State} {before after : List RtsAccess} {x : RtsAccess} {ending : RtsEnding}
    (himpl : s.selectorClass (s.srcVal src) = .implemented)
    (hperf : s.rtsPerformance (s.srcVal src) = ⟨before ++ x :: after, ending⟩) (hbefore : s.allInRange before)
    (hx : s.inRange (accessAddr x) = false) :
    ∃ m, execSys src s = .next ((s.advance.rtsDrawn.setMem m).raiseMem s.pc (accessAddr x)) ∧
      ∀ b, m.readWord s.cfg.memFill b = wordAfter before b (s.readWord b) := by
  obtain ⟨m, haccesses, hwords⟩ := rtsAccesses_outside before after x s.advance.rtsDrawn hbefore hx
  exact ⟨m, by simp only [execSys, himpl, performCall, hperf, haccesses], hwords⟩

/-- Settles O52: the performance's writes are memory after it, and the returned value is the one register written. -/
theorem systemCallReturns : Obligations.SystemCallReturns := by
  unfold Obligations.SystemCallReturns
  intro src s accesses v himpl hperf hin
  rw [exec_sys]
  obtain ⟨m, hexec, hwords, hbytes⟩ := execSys_of_allInRange himpl hperf hin
  refine ⟨(s.advance.rtsDrawn.setMem m).setReg .acc v, hexec, reg_setReg_same .., fun q hq => ?others, ?pc, ?status, ?trap,
    ?cfg, ?script, ?calls, fun b => ?word, fun k hk => ?byte⟩
  case others => rw [reg_setReg_ne _ _ _ _ hq, reg_setMem, reg_rtsDrawn, reg_advance]
  case word => rw [readWord_setReg, readWord_setMem, rtsDrawn_cfg, advance_cfg, hwords]
  case byte => rw [readByte_setReg, readByte_setMem, rtsDrawn_cfg, advance_cfg, hbytes k hk]
  all_goals simp

/-- Settles O53: the ending sets the status alone, in the memory that the performance leaves. -/
theorem systemCallExits : Obligations.SystemCallExits := by
  unfold Obligations.SystemCallExits
  intro src s accesses v himpl hperf hin
  rw [exec_sys]
  obtain ⟨m, hexec, hwords, _⟩ := execSys_of_allInRange himpl hperf hin
  refine ⟨(s.advance.rtsDrawn.setMem m).setStatus (.exited v), hexec, setStatus_status .., fun q => ?regs, ?pc, ?trap, ?cfg,
    fun b => ?word⟩
  case word => rw [readWord_setStatus, readWord_setMem, rtsDrawn_cfg, advance_cfg, hwords]
  all_goals simp

/-- Settles O54: the accesses before the first one outside memory are done, and nothing after it is. -/
theorem systemCallMemoryFault : Obligations.SystemCallMemoryFault := by
  unfold Obligations.SystemCallMemoryFault
  intro src s before after x ending himpl hperf hbefore hx
  rw [exec_sys]
  obtain ⟨m, hexec, hwords⟩ := execSys_of_outside himpl hperf hbefore hx
  refine ⟨_, hexec, ?fault, fun q => ?regs, fun b => ?word⟩
  case fault => constructor <;> simp
  case regs => simp
  case word => rw [readWord_raiseMem, readWord_setMem, rtsDrawn_cfg, advance_cfg, hwords]

/-- Settles O56: the ending without an answer has no next state. -/
theorem unansweredSystemCallIsStuck : Obligations.UnansweredSystemCallIsStuck := by
  unfold Obligations.UnansweredSystemCallIsStuck
  intro src s accesses himpl hperf hin
  rw [exec_sys]
  obtain ⟨m, hexec, _⟩ := execSys_of_allInRange himpl hperf hin
  exact hexec

/-! ### HALT -/

theorem step_setStatus_halted (s : State) (v : Word) : step (s.setStatus (.halted v)) = .fault .runEnded :=
  step_of_not_running Status.noConfusion

/-- Settles O57: HALT advances pc and sets the status, and no step follows. -/
theorem haltResult : Obligations.HaltResult := by
  unfold Obligations.HaltResult
  intro s
  exact ⟨_, exec_halt s, setStatus_status .., fun q => reg_setStatus .., rfl, rfl, rfl, rfl, rfl, rfl,
    step_setStatus_halted ..⟩

end Sys2Proof.Machine

/-! Load, invocation and the host's result (R192, R200, R201): the state that load makes, its invariant, and the exit statuses. -/

namespace Sys2Proof.Machine

/-- Settles O14: the invocation is a record update, and the parameters of `Config.standard` are the spec's. -/
theorem invocationSetsRegistersKeepsMemory : Obligations.InvocationSetsRegistersKeepsMemory := by
  unfold Obligations.InvocationSetsRegistersKeepsMemory
  refine ⟨fun s entry => ?invoked, fun memSize dataStart image selectors => ?standard⟩
  case invoked =>
    exact ⟨reg_invoke_sp .., reg_invoke_fp .., reg_invoke_acc .., reg_invoke_sec .., invoke_pc .., invoke_trap ..,
      invoke_status .., fun k => readByte_invoke .., invoke_cfg ..⟩
  case standard => exact ⟨(wrap32_natCast _).symm, (wrap32_natCast _).symm, rfl, rfl⟩

/-- The state that load makes of a configuration it accepts. -/
def loaded (cfg : Config) : State :=
  State.invoke { State.reset with cfg := cfg, mem := Memory.writeWords cfg.memFill [] 0 cfg.image } cfg.entry

theorem load_of_ok {cfg : Config} (h : cfg.ok = true) : State.load cfg = .ok (loaded cfg) := if_pos h

theorem load_of_not_ok {cfg : Config} (h : ¬ cfg.ok = true) : State.load cfg = .error .configurationNotDescribed := if_neg h

theorem configOk_iff (cfg : Config) :
    cfg.ok = true ↔ 1 ≤ cfg.memSize ∧ cfg.memSize ≤ 2 ^ 28 ∧ cfg.dataStart ≤ cfg.memSize ∧
      cfg.image.length ≤ cfg.memSize ∧ cfg.opc.ok = true ∧ cfg.exitCodes.ok = true := by
  simp only [Config.ok, Bool.and_eq_true, decide_eq_true_eq, and_assoc]

theorem readWord_loaded (cfg : Config) (a : Nat) : (loaded cfg).readWord a = cfg.image.getD a cfg.memFill := by
  have h := readWord_writeWords (fill := cfg.memFill) [] 0 cfg.image a
  rwa [if_pos (Nat.zero_le a), Nat.sub_zero, readWord_nil] at h

theorem inv_loaded {cfg : Config} (h : cfg.ok = true) : (loaded cfg).Inv where
  configOk := h
  memWf := wf_writeWords 0 cfg.image wf_nil
  memWithin := by
    obtain ⟨_, _, _, himage, _⟩ := (configOk_iff cfg).1 h
    have hempty : Memory.within [] cfg.memSize := fun c hc => nomatch hc
    exact within_writeWords cfg.image hempty (by rwa [Nat.zero_add])
  trapAgrees := Status.noConfusion

/-- Settles O15: the model's check of the parameters is the stated one, and load writes the image into an empty memory. -/
theorem loadFillsMemory : Obligations.LoadFillsMemory := by
  unfold Obligations.LoadFillsMemory
  intro cfg
  split
  case isTrue hbounds =>
    have hok := (configOk_iff cfg).2 hbounds
    exact ⟨loaded cfg, load_of_ok hok, inv_loaded hok, rfl, rfl, rfl, rfl, rfl, rfl, rfl, rfl, readWord_loaded cfg⟩
  case isFalse hbounds => exact load_of_not_ok fun hok => hbounds ((configOk_iff cfg).1 hok)

theorem default_ok : Config.default.ok = true := by decide

theorem loaded_default : loaded Config.default = State.reset := rfl

/-- Settles O13: the reset state is the loaded default configuration, whose image is empty and whose fill is 0. -/
theorem resetState : Obligations.ResetState := by
  unfold Obligations.ResetState
  refine ⟨?sp, ?fp, rfl, rfl, rfl, rfl, rfl, fun a => ?memory, ?load⟩
  case sp => decide
  case fp => decide
  case memory => exact readWord_nil a
  case load => rw [load_of_ok default_ok, loaded_default]

/-- Settles O17: the reset state is one that load makes. -/
theorem resetMeetsInvariant : Obligations.ResetMeetsInvariant := by
  unfold Obligations.ResetMeetsInvariant
  rw [← loaded_default]
  exact inv_loaded default_ok

/-! ### The host's result -/

theorem exitCodes_ok {e : ExitCodes} (h : e.ok = true) : e.toList.Nodup ∧ 0 ∉ e.toList := by
  simpa only [ExitCodes.ok, Bool.and_eq_true, decide_eq_true_eq] using h

/-- The list of exit statuses is in the order of the kinds. -/
theorem getElem?_toList (e : ExitCodes) (k : FaultKind) : e.toList[k.ctorIdx]? = some (exitStatusOf e k) := by
  cases k <;> rfl

theorem exitStatusOf_ne_zero {e : ExitCodes} (h : e.ok = true) (k : FaultKind) : exitStatusOf e k ≠ 0 :=
  ne_of_mem_of_not_mem (List.mem_of_getElem? (getElem?_toList e k)) (exitCodes_ok h).2

theorem exitStatusOf_injective {e : ExitCodes} (h : e.ok = true) {k k' : FaultKind}
    (heq : exitStatusOf e k = exitStatusOf e k') : k = k' := by
  have hlt : k.ctorIdx < e.toList.length := (List.getElem?_eq_some_iff.1 (getElem?_toList e k)).1
  have hsame : e.toList[k.ctorIdx]? = e.toList[k'.ctorIdx]? := by rw [getElem?_toList, getElem?_toList, heq]
  have hidx : k.ctorIdx = k'.ctorIdx := (List.getElem?_inj hlt (exitCodes_ok h).1).1 hsame
  rw [← FaultKind.ofNat_ctorIdx k, hidx, FaultKind.ofNat_ctorIdx]

theorem hostResult_of_fault {s : State} {k : FaultKind} (h : s.status = .fault k) :
    s.hostResult = some (.fatal (exitStatusOf s.cfg.exitCodes k) (s.trap.getD s.pc)) := by
  simp only [State.hostResult, h]

/-- In a sound state the trap flag is set exactly for a memory fault. -/
theorem trap_eq_none_iff {s : State} (h : s.trapAgrees) : s.trap = none ↔ s.status ≠ .fault .illegalMemoryAccess := by
  unfold State.trapAgrees at h
  split at h
  case h_1 hnone => exact iff_of_true hnone h
  case h_2 a hsome => simp [hsome, h.1]

/-- Settles O16: the map of the configuration tells the kinds apart, and the address is the trap's exactly where it is set. -/
theorem hostSeesDistinctFailures : Obligations.HostSeesDistinctFailures := by
  unfold Obligations.HostSeesDistinctFailures
  intro s hinv
  obtain ⟨_, _, _, _, _, hcodes⟩ := (configOk_iff s.cfg).1 hinv.configOk
  refine ⟨fun hrun => ?running, fun v hhalted => ?halted, fun v hexited => ?exited, fun k hfault =>
    ⟨_, rfl, exitStatusOf_ne_zero hcodes k, fun k' heq => exitStatusOf_injective hcodes heq, fun hmem => ?memoryFault,
      fun hother => ?otherFault⟩⟩
  case running => simp only [State.hostResult, hrun]
  case halted => simp only [State.hostResult, hhalted]
  case exited => simp only [State.hostResult, hexited]
  case memoryFault =>
    subst hmem
    have hsome : s.trap ≠ none := fun hnone => (trap_eq_none_iff hinv.trapAgrees).1 hnone hfault
    obtain ⟨a, ha⟩ := Option.ne_none_iff_exists'.1 hsome
    exact ⟨a, ha, by rw [hostResult_of_fault hfault, ha, Option.getD_some]⟩
  case otherFault =>
    have hnone : s.trap = none :=
      (trap_eq_none_iff hinv.trapAgrees).2 fun hmem => hother (Status.fault.inj (hfault.symm.trans hmem))
    rw [hostResult_of_fault hfault, hnone, Option.getD_none]

end Sys2Proof.Machine

/-! Everything an instruction can do, said once (10_state.md R12 to R21, 20_memory.md R37, 60_exceptions.md R170 to R191). `EffectOf`
says what a next state of an instruction keeps and how the instruction ended; `exec_effectOf` proves it of all 32 by the shapes they
share, and the whole-machine rules are read off it. -/

namespace Sys2Proof.Machine

/-! ### Changes of memory -/

/-- Between two states memory changes in words of a list of addresses only, all of them in the array. -/
structure State.StoresWithin (s t : State) (addrs : List Word) : Prop where
  bytes : ∀ k, (∀ a ∈ addrs, k < 4 * a.toNat ∨ 4 * a.toNat + 4 ≤ k) → t.readByte k = s.readByte k
  wf : s.mem.wf s.cfg.memFill → t.mem.wf s.cfg.memFill
  within : s.mem.within s.cfg.memSize → t.mem.within s.cfg.memSize

section
variable {s t u : State} {addrs : List Word}

theorem storesWithin_of_mem_eq (hmem : t.mem = s.mem) (hcfg : t.cfg = s.cfg) : s.StoresWithin t addrs where
  bytes k _ := readByte_congr hmem hcfg k
  wf h := hmem ▸ h
  within h := hmem ▸ h

theorem storesWithin_congr (hmem : u.mem = t.mem) (hcfg : u.cfg = t.cfg) (h : s.StoresWithin t addrs) :
    s.StoresWithin u addrs where
  bytes k hk := (readByte_congr hmem hcfg k).trans (h.bytes k hk)
  wf hs := hmem ▸ h.wf hs
  within hs := hmem ▸ h.within hs

theorem storesWithin_writeWord {a : Word} (v : Word) (h : s.StoresWithin t addrs) (hcfg : t.cfg = s.cfg)
    (hin : s.inRange a = true) (ha : a ∈ addrs) : s.StoresWithin (t.writeWord a.toNat v) addrs where
  bytes k hk := (readByte_writeWord_state t _ v k (hk a ha)).trans (h.bytes k hk)
  wf hs := by
    rw [writeWord_mem, hcfg]
    exact wf_writeWord _ v (h.wf hs)
  within hs := within_writeWord v (h.within hs) (inRange_iff.1 hin)

end

/-! ### The effect of an instruction -/

/-- What an instruction must meet to take a fault that is no memory fault (R173 to R175). -/
def FaultCause (i : Instr) (s : State) : FaultKind → Prop
  | .divisionByZero => ∃ rb src, (i = .div rb src ∨ i = .mod rb src) ∧ s.srcVal src = 0#32
  | .undefinedSystemCall => ∃ src, i = .sys src ∧ s.selectorClass (s.srcVal src) = .undefined
  | .unsupportedSystemCall => ∃ src, i = .sys src ∧ s.selectorClass (s.srcVal src) = .unsupported
  | .illegalInstruction => False
  | .illegalMemoryAccess => False

/-- How an instruction ends: it completes, going on unless it is HALT or SYS, or takes a fault for a cause, or meets an address outside
memory. -/
inductive State.EndsBy (i : Instr) (s t : State) : Prop where
  | completes (pc : t.pc = pcAfter i s) (trap : t.trap = s.trap)
      (status : t.status = s.status ∨ (i = .halt ∨ ∃ src, i = .sys src) ∧ ∀ k, t.status ≠ .fault k)
  | faults (k : FaultKind) (cause : FaultCause i s k) (status : t.status = .fault k) (pc : t.pc = s.pc) (trap : t.trap = s.trap)
  | memFaults (a : Word) (outside : s.inRange a = false) (fault : s.EndsInMemFault t a)

/-- What an instruction that answers a next state has done. -/
structure State.EffectOf (i : Instr) (s t : State) : Prop where
  cfg : t.cfg = s.cfg
  regs : ∀ r, r ∉ writtenRegs i → t.reg r = s.reg r
  mem : s.StoresWithin t (storedAddrs i s)
  rts : (∀ src, i ≠ .sys src) → t.rtsScript = s.rtsScript ∧ t.rtsCalls = s.rtsCalls
  ends : s.EndsBy i t

/-! ### The shapes of an effect -/

section
variable {i : Instr} {s t : State}

theorem effectOf_of_writesOnly {rd : Reg} {v : Word} (h : s.WritesOnly t rd v) (hrd : rd ∈ writtenRegs i)
    (hpc : pcAfter i s = s.pc + 1#32) : s.EffectOf i t where
  cfg := h.rest.cfg
  regs r hr := h.others r (ne_of_mem_of_not_mem hrd hr).symm
  mem := storesWithin_of_mem_eq h.mem h.rest.cfg
  rts _ := ⟨h.rest.rtsScript, h.rest.rtsCalls⟩
  ends := .completes (h.pc.trans hpc.symm) h.rest.trap (.inl h.rest.status)

theorem effectOf_of_transfersOnly {target : Word} (h : s.TransfersOnly t target) (hpc : pcAfter i s = target) :
    s.EffectOf i t where
  cfg := h.rest.cfg
  regs r _ := h.regs r
  mem := storesWithin_of_mem_eq h.mem h.rest.cfg
  rts _ := ⟨h.rest.rtsScript, h.rest.rtsCalls⟩
  ends := .completes (h.pc.trans hpc.symm) h.rest.trap (.inl h.rest.status)

theorem effectOf_of_takesFault {k : FaultKind} (h : s.TakesFault t k) (hcause : FaultCause i s k) : s.EffectOf i t where
  cfg := h.cfg
  regs r _ := h.regs r
  mem := storesWithin_of_mem_eq h.mem h.cfg
  rts _ := ⟨h.rtsScript, h.rtsCalls⟩
  ends := .faults k hcause h.status h.pc h.trap

theorem effectOf_of_takesMemFault {a : Word} (h : s.TakesMemFault t a) (hout : s.inRange a = false) : s.EffectOf i t where
  cfg := h.fault.cfg
  regs r _ := h.regs r
  mem := storesWithin_of_mem_eq h.mem h.fault.cfg
  rts _ := ⟨h.rtsScript, h.rtsCalls⟩
  ends := .memFaults a hout h.fault

/-- An instruction that completes with stores, and is no SYS. -/
theorem effectOf_of_sameRest (hrest : s.SameRest t) (hregs : ∀ r, r ∉ writtenRegs i → t.reg r = s.reg r)
    (hmem : s.StoresWithin t (storedAddrs i s)) (hpc : t.pc = pcAfter i s) : s.EffectOf i t where
  cfg := hrest.cfg
  regs := hregs
  mem := hmem
  rts _ := ⟨hrest.rtsScript, hrest.rtsCalls⟩
  ends := .completes hpc hrest.trap (.inl hrest.status)

/-! ### The shared operations -/

variable (i s)

theorem divideOp_effectOf (f : Word → Word → Word) {rb : Reg} {src : Src} (hi : i = .div rb src ∨ i = .mod rb src) :
    s.EffectOf i (divideOp f rb src s) := by
  have hrd : rb ∈ writtenRegs i ∧ pcAfter i s = s.pc + 1#32 := by
    obtain rfl | rfl := hi
    · exact ⟨List.mem_singleton_self rb, rfl⟩
    · exact ⟨List.mem_singleton_self rb, rfl⟩
  by_cases hzero : s.srcVal src = 0#32
  case pos => exact effectOf_of_takesFault (divideOp_takesFault f rb hzero) ⟨rb, src, hi, hzero⟩
  case neg => exact effectOf_of_writesOnly (divideOp_writesOnly f rb hzero) hrd.1 hrd.2

theorem loadInto_effectOf {rd : Reg} (ea : Word) (hrd : rd ∈ writtenRegs i) (hpc : pcAfter i s = s.pc + 1#32) :
    s.EffectOf i (loadInto rd ea s) := by
  cases hin : s.inRange ea with
  | true => exact effectOf_of_writesOnly (loadInto_writesOnly rd hin) hrd hpc
  | false => exact effectOf_of_takesMemFault (loadInto_takesMemFault rd hin) hin

theorem storeFrom_effectOf (rd : Reg) {ea : Word} (hea : ea ∈ storedAddrs i s) (hpc : pcAfter i s = s.pc + 1#32) :
    s.EffectOf i (storeFrom rd ea s) := by
  cases hin : s.inRange ea with
  | true =>
    obtain ⟨_, hregs, hpc', hrest⟩ := storeFrom_stores rd hin
    refine effectOf_of_sameRest hrest (fun r _ => hregs r) ?_ (hpc'.trans hpc.symm)
    rw [storeFrom_of_inRange rd hin]
    exact storesWithin_writeWord _ (storesWithin_of_mem_eq rfl rfl) rfl hin hea
  | false => exact effectOf_of_takesMemFault (storeFrom_takesMemFault rd hin) hin

theorem branchIf_effectOf {cond : Word → Bool} {P : Prop} [Decidable P] (offset : Word) (hcond : cond (s.reg .acc) = true ↔ P)
    (hpc : pcAfter i s = if P then s.pc + 1#32 + offset else s.pc + 1#32) : s.EffectOf i (branchIf cond offset s) :=
  effectOf_of_transfersOnly (branchIf_transfersOnly_ite offset hcond) hpc

theorem push_effectOf (src : Src) : ∃ t, exec (.push src) s = .next t ∧ s.EffectOf (.push src) t := by
  cases hin : s.inRange (s.reg .sp) with
  | true =>
    refine ⟨_, exec_push_of_inRange src hin, effectOf_of_sameRest (pushWrites_sameRest src s) ?regs ?mem (pushWrites_pc src s)⟩
    case regs => exact fun r hr => reg_pushWrites_ne src s (List.ne_of_not_mem_cons hr)
    case mem =>
      refine storesWithin_congr (t := s.writeWord (s.reg .sp).toNat (s.srcVal src)) (by simp [pushWrites])
        (by simp [pushWrites]) ?_
      exact storesWithin_writeWord _ (storesWithin_of_mem_eq rfl rfl) rfl hin (List.mem_singleton_self _)
  | false => exact ⟨_, exec_push_of_not_inRange src hin, effectOf_of_takesMemFault (raiseMem_takesMemFault s _) hin⟩

theorem pop_effectOf (rb : Reg) : ∃ t, exec (.pop rb) s = .next t ∧ s.EffectOf (.pop rb) t := by
  cases hin : s.inRange (s.reg .sp + 1#32) with
  | true =>
    refine ⟨_, exec_pop_of_inRange rb hin, effectOf_of_sameRest (popWrites_sameRest rb s) ?regs ?mem (popWrites_pc rb s)⟩
    case regs =>
      intro r hr
      obtain ⟨hsp, hrb⟩ : r ≠ .sp ∧ r ≠ rb := by simpa [writtenRegs] using hr
      exact reg_popWrites_ne rb s hsp hrb
    case mem => exact storesWithin_of_mem_eq (popWrites_mem rb s) (popWrites_sameRest rb s).cfg
  | false => exact ⟨_, exec_pop_of_not_inRange rb hin, effectOf_of_takesMemFault (raiseMem_takesMemFault s _) hin⟩

/-- Beside the stack and the frame pointer there are two registers. -/
theorem reg_eq_of_not_mem_sp_fp {s t : State} (hacc : t.reg .acc = s.reg .acc) (hsec : t.reg .sec = s.reg .sec) :
    ∀ r, r ∉ [Reg.sp, .fp] → t.reg r = s.reg r
  | .sp, h => absurd List.mem_cons_self h
  | .fp, h => absurd (List.mem_cons_of_mem _ List.mem_cons_self) h
  | .acc, _ => hacc
  | .sec, _ => hsec

theorem ret_effectOf : ∃ t, exec .ret s = .next t ∧ s.EffectOf .ret t := by
  cases hfirst : s.inRange (s.reg .fp) with
  | false => exact ⟨_, execRet_first_faults hfirst, effectOf_of_takesMemFault (raiseMem_takesMemFault s _) hfirst⟩
  | true =>
    cases hsecond : s.inRange (s.reg .fp + 1#32) with
    | true =>
      refine ⟨_, exec_ret_of_inRange hfirst hsecond, effectOf_of_sameRest (retWrites_sameRest s) ?regs ?mem rfl⟩
      case regs => exact reg_eq_of_not_mem_sp_fp (by simp) (by simp)
      case mem => exact storesWithin_of_mem_eq (retWrites_mem s) (retWrites_sameRest s).cfg
    | false =>
      refine ⟨_, execRet_second_faults hfirst hsecond, by simp, reg_eq_of_not_mem_sp_fp (by simp) (by simp),
        storesWithin_of_mem_eq (by simp) (by simp), fun _ => ⟨by simp, by simp⟩, .memFaults _ hsecond ?fault⟩
      case fault => constructor <;> simp

theorem callTo_effectOf {target : Word} (hregs : writtenRegs i = [.sp, .fp])
    (haddrs : storedAddrs i s = [s.reg .sp, s.reg .sp - 1#32]) (hpc : pcAfter i s = target) :
    s.EffectOf i (callTo target s) := by
  have hfirstAddr : s.reg .sp ∈ storedAddrs i s := haddrs ▸ List.mem_cons_self
  have hsecondAddr : s.reg .sp - 1#32 ∈ storedAddrs i s := haddrs ▸ List.mem_cons_of_mem _ List.mem_cons_self
  cases hfirst : s.inRange (s.reg .sp) with
  | false => exact effectOf_of_takesMemFault (callTo_takesMemFault target hfirst) hfirst
  | true =>
    have hpush : s.StoresWithin (s.writeWord (s.reg .sp).toNat (s.reg .fp)) (storedAddrs i s) :=
      storesWithin_writeWord _ (storesWithin_of_mem_eq rfl rfl) rfl hfirst hfirstAddr
    cases hsecond : s.inRange (s.reg .sp - 1#32) with
    | true =>
      obtain ⟨_, _, _, hacc, hsec, hpc', hrest⟩ := callTo_links target hfirst hsecond
      refine effectOf_of_sameRest hrest (hregs ▸ reg_eq_of_not_mem_sp_fp hacc hsec) ?_ (hpc'.trans hpc.symm)
      rw [callTo_completes target hfirst hsecond]
      exact storesWithin_congr (t := callWrites s) (by simp) (by simp)
        (storesWithin_writeWord _ hpush (by simp) hsecond hsecondAddr)
    | false =>
      obtain ⟨hfault, _, _, _, hacc, hsec⟩ := callTo_faults_after_first_push target hfirst hsecond
      refine ⟨hfault.cfg, hregs ▸ reg_eq_of_not_mem_sp_fp hacc hsec, ?mem, fun _ => ?rts, .memFaults _ hsecond hfault⟩
      case mem =>
        rw [callTo_second_faults target hfirst hsecond]
        exact storesWithin_congr (by simp) (by simp) hpush
      case rts =>
        rw [callTo_second_faults target hfirst hsecond]
        exact ⟨by simp, by simp⟩

theorem halt_effectOf : ∃ t, exec .halt s = .next t ∧ s.EffectOf .halt t :=
  ⟨_, exec_halt s, rfl, fun _ _ => reg_setStatus .., storesWithin_of_mem_eq rfl rfl, fun _ => ⟨rfl, rfl⟩,
    .completes rfl rfl (.inr ⟨.inl rfl, fun _ => Status.noConfusion⟩)⟩

end

/-! ### SYS -/

/-- What a performance that answers leaves, in whatever memory its accesses left. -/
theorem finishCall_effect {ending : RtsEnding} {s t : State} (h : finishCall ending s = .next t) :
    t.cfg = s.cfg ∧ (∀ r, r ≠ .acc → t.reg r = s.reg r) ∧ t.mem = s.mem ∧ t.pc = s.pc ∧ t.trap = s.trap ∧
      (t.status = s.status ∨ ∀ k, t.status ≠ .fault k) := by
  cases ending with
  | ret v =>
    cases h
    exact ⟨by simp, fun r hr => reg_setReg_ne _ _ _ _ hr, by simp, by simp, by simp, .inl (by simp)⟩
  | exit v =>
    cases h
    exact ⟨rfl, fun _ _ => rfl, rfl, rfl, rfl, .inr fun _ => Status.noConfusion⟩
  | never => cases h

theorem sys_effectOf {src : Src} {s t : State} (h : exec (.sys src) s = .next t) : s.EffectOf (.sys src) t := by
  rw [exec_sys] at h
  cases hclass : s.selectorClass (s.srcVal src) with
  | undefined =>
    cases (execSys_of_undefined hclass).symm.trans h
    exact effectOf_of_takesFault (raise_takesFault s _) ⟨src, rfl, hclass⟩
  | unsupported =>
    cases (execSys_of_unsupported hclass).symm.trans h
    exact effectOf_of_takesFault (raise_takesFault s _) ⟨src, rfl, hclass⟩
  | implemented =>
    obtain ⟨m, hends, hbytes, hwf, hwithin⟩ := execSys_of_implemented hclass
    have hmem : s.StoresWithin (s.advance.rtsDrawn.setMem m) (storedAddrs (.sys src) s) := ⟨hbytes, hwf, hwithin⟩
    obtain ⟨a, hout, hfault⟩ | hfinish := hends
    · cases hfault.symm.trans h
      refine ⟨by simp, fun r _ => by simp, storesWithin_congr (by simp) (by simp) hmem, fun hsys => absurd rfl (hsys src),
        .memFaults a hout ?fault⟩
      case fault => constructor <;> simp
    · obtain ⟨hcfg, hregs, hmem', hpc, htrap, hstatus⟩ := finishCall_effect (hfinish.symm.trans h)
      refine ⟨hcfg, fun r hr => hregs r (List.ne_of_not_mem_cons hr), storesWithin_congr hmem' hcfg hmem,
        fun hsys => absurd rfl (hsys src), .completes hpc htrap ?ending⟩
      case ending => exact hstatus.imp_right fun hnofault => ⟨.inr ⟨src, rfl⟩, hnofault⟩

/-! ### The instructions -/

/-- Every instruction but SYS has a next state. -/
theorem exec_effectOf_of_ne_sys {i : Instr} (s : State) (hsys : ∀ src, i ≠ .sys src) :
    ∃ t, exec i s = .next t ∧ s.EffectOf i t := by
  cases i
  case sys src => exact absurd rfl (hsys src)
  case mov rb src | add rb src | sub rb src | mul rb src | and rb src | or rb src | shl rb src | shr rb src | cmp rb src =>
    exact ⟨_, rfl, effectOf_of_writesOnly (aluOp_writesOnly _ rb src s) (List.mem_singleton_self rb) rfl⟩
  case div rb src => exact ⟨_, exec_div rb src s, divideOp_effectOf _ s _ (.inl rfl)⟩
  case mod rb src => exact ⟨_, exec_mod rb src s, divideOp_effectOf _ s _ (.inr rfl)⟩
  case ladM rd base offset =>
    exact ⟨_, exec_ladM rd base offset s,
      effectOf_of_writesOnly (advance_setReg_writesOnly rd _ s) (List.mem_singleton_self rd) rfl⟩
  case ladA target =>
    exact ⟨_, exec_ladA target s,
      effectOf_of_writesOnly (advance_setReg_writesOnly .acc _ s) (List.mem_singleton_self _) rfl⟩
  case jmpR src => exact ⟨_, exec_jmpR src s, effectOf_of_transfersOnly (setPc_transfersOnly s _) rfl⟩
  case jmpA target => exact ⟨_, exec_jmpA target s, effectOf_of_transfersOnly (setPc_transfersOnly s _) rfl⟩
  case callR src => exact ⟨_, exec_callR src s, callTo_effectOf _ s rfl rfl rfl⟩
  case callA target => exact ⟨_, exec_callA target s, callTo_effectOf _ s rfl rfl rfl⟩
  case beq offset => exact ⟨_, exec_beq offset s, branchIf_effectOf _ s offset condEq_iff rfl⟩
  case bne offset => exact ⟨_, exec_bne offset s, branchIf_effectOf _ s offset condNe_iff (ite_not ..).symm⟩
  case blt offset => exact ⟨_, exec_blt offset s, branchIf_effectOf _ s offset condLt_iff rfl⟩
  case ble offset => exact ⟨_, exec_ble offset s, branchIf_effectOf _ s offset condLe_iff rfl⟩
  case bgt offset =>
    exact ⟨_, exec_bgt offset s, branchIf_effectOf _ s offset (condGt_iff.trans Int.not_le.symm) (ite_not ..).symm⟩
  case bge offset =>
    exact ⟨_, exec_bge offset s, branchIf_effectOf _ s offset (condGe_iff.trans Int.not_lt.symm) (ite_not ..).symm⟩
  case movLd rd base offset =>
    exact ⟨_, exec_movLd rd base offset s, loadInto_effectOf _ s _ (List.mem_singleton_self rd) rfl⟩
  case movLda target => exact ⟨_, exec_movLda target s, loadInto_effectOf _ s _ (List.mem_singleton_self _) rfl⟩
  case movSt rd base offset =>
    exact ⟨_, exec_movSt rd base offset s, storeFrom_effectOf _ s rd (List.mem_singleton_self _) rfl⟩
  case movSta target => exact ⟨_, exec_movSta target s, storeFrom_effectOf _ s .acc (List.mem_singleton_self _) rfl⟩
  case push src => exact push_effectOf s src
  case pop rb => exact pop_effectOf s rb
  case ret => exact ret_effectOf s
  case halt => exact halt_effectOf s

theorem exec_effectOf {i : Instr} {s t : State} (h : exec i s = .next t) : s.EffectOf i t := by
  by_cases hsys : ∃ src, i = .sys src
  case pos =>
    obtain ⟨src, rfl⟩ := hsys
    exact sys_effectOf h
  case neg =>
    obtain ⟨u, hu, heffect⟩ := exec_effectOf_of_ne_sys s (not_exists.1 hsys)
    cases hu.symm.trans h
    exact heffect

/-! ### The frame of an instruction -/

/-- Settles O20: the register part of the effect. -/
theorem registerFrame : Obligations.RegisterFrame := by
  unfold Obligations.RegisterFrame
  exact fun i s t hexec => (exec_effectOf hexec).regs

/-- Settles O21: the memory part of the effect. -/
theorem memoryFrame : Obligations.MemoryFrame := by
  unfold Obligations.MemoryFrame
  exact fun i s t hexec => (exec_effectOf hexec).mem.bytes

/-- Settles O22: trap and status by how the instruction ended. -/
theorem statusAndTrapFrame : Obligations.StatusAndTrapFrame := by
  unfold Obligations.StatusAndTrapFrame
  intro i s t hexec
  have heffect := exec_effectOf hexec
  refine ⟨heffect.cfg, fun hnoMem => ?trap, fun hhalt hsys hnoFault => ?status, heffect.rts⟩
  case trap =>
    cases heffect.ends with
    | completes pc trap status => exact trap
    | faults k cause status pc trap => exact trap
    | memFaults a outside fault => exact absurd fault.status hnoMem
  case status =>
    cases heffect.ends with
    | completes pc trap status =>
      exact status.resolve_right fun ⟨hkind, _⟩ => hkind.elim hhalt fun ⟨src, hsrc⟩ => hsys src hsrc
    | faults k cause status pc trap => exact absurd status (hnoFault k)
    | memFaults a outside fault => exact absurd fault.status (hnoFault _)

/-! ### The effect of a step -/

/-- What a step that answers a next state has done: taken the fetch's fault, taken the fault of an illegal word, or run the current
instruction. -/
theorem step_effect_cases {s t : State} (h : step s = .next t) :
    (s.currentInstr = none ∧ s.inRange s.pc = false ∧ s.TakesMemFault t s.pc) ∨
    (s.currentInstr = none ∧ (∃ w why, s.fetch = some w ∧ decode s.cfg.opc s.cfg.raDecode w = .illegal why) ∧
      s.TakesFault t .illegalInstruction) ∨
    ∃ i, s.currentInstr = some i ∧ s.EffectOf i t := by
  obtain ⟨hpc, hcur, hstep⟩ | ⟨w, why, hfetch, hillegal, hcur, hstep⟩ | ⟨_, i, _, _, hcur, hstep⟩ :=
    step_running_cases (running_of_step h)
  · cases hstep.symm.trans h
    exact .inl ⟨hcur, hpc, fetchFault_takesMemFault s⟩
  · cases hstep.symm.trans h
    exact .inr (.inl ⟨hcur, ⟨w, why, hfetch, hillegal⟩, raise_takesFault s _⟩)
  · exact .inr (.inr ⟨i, hcur, exec_effectOf (hstep.symm.trans h)⟩)

/-- An instruction that completes on a running machine leaves no fault. -/
theorem not_fault_of_completes {i : Instr} {s t : State} (hrun : s.status = .running)
    (hstatus : t.status = s.status ∨ (i = .halt ∨ ∃ src, i = .sys src) ∧ ∀ k, t.status ≠ .fault k) (k : FaultKind) :
    t.status ≠ .fault k := by
  obtain hsame | ⟨_, hnofault⟩ := hstatus
  · rw [hsame, hrun]
    exact Status.noConfusion
  · exact hnofault k

/-- Settles O23: pc by how the current instruction ended, and at the instruction for the two faults before it. -/
theorem pcAfterStep : Obligations.PcAfterStep := by
  unfold Obligations.PcAfterStep
  intro s t hstep
  have hrun := running_of_step hstep
  obtain ⟨hcur, _, hfault⟩ | ⟨hcur, _, hfault⟩ | ⟨i, hcur, heffect⟩ := step_effect_cases hstep
  · exact ⟨fun i hi => (Option.some_ne_none i (hi.symm.trans hcur)).elim, fun _ _ => hfault.fault.pc⟩
  · exact ⟨fun i hi => (Option.some_ne_none i (hi.symm.trans hcur)).elim, fun _ _ => hfault.pc⟩
  · refine ⟨fun j hj hnofault => ?completes, fun k hk => ?faults⟩
    case completes =>
      obtain rfl : i = j := Option.some.inj (hcur.symm.trans hj)
      cases heffect.ends with
      | completes pc trap status => exact pc
      | faults k cause status pc trap => exact absurd status (hnofault k)
      | memFaults a outside fault => exact absurd fault.status (hnofault _)
    case faults =>
      cases heffect.ends with
      | completes pc trap status => exact absurd hk (not_fault_of_completes hrun status k)
      | faults k cause status pc trap => exact pc
      | memFaults a outside fault => exact fault.pc

/-- Settles O24: each kind by the one way of a step to take it. -/
theorem faultCauses : Obligations.FaultCauses := by
  unfold Obligations.FaultCauses
  intro s t k hrun hstep hk
  obtain ⟨_, hpc, hfault⟩ | ⟨_, hillegal, hfault⟩ | ⟨i, hcur, heffect⟩ := step_effect_cases hstep
  · cases hk.symm.trans hfault.fault.status
    exact ⟨s.pc, hfault.fault.trap, not_inRange_iff.1 hpc⟩
  · cases hk.symm.trans hfault.status
    exact hillegal
  · cases heffect.ends with
    | completes pc trap status => exact absurd hk (not_fault_of_completes hrun status k)
    | memFaults a outside fault =>
      cases hk.symm.trans fault.status
      exact ⟨a, fault.trap, not_inRange_iff.1 outside⟩
    | faults k' cause status pc trap =>
      obtain rfl : k = k' := Status.fault.inj (hk.symm.trans status)
      cases k with
      | illegalInstruction => exact cause.elim
      | illegalMemoryAccess => exact cause.elim
      | divisionByZero =>
        obtain ⟨rb, src, hi, hzero⟩ := cause
        exact ⟨rb, src, hi.imp (hcur.trans <| congrArg some ·) (hcur.trans <| congrArg some ·), hzero⟩
      | undefinedSystemCall =>
        obtain ⟨src, rfl, hclass⟩ := cause
        exact ⟨src, hcur, hclass⟩
      | unsupportedSystemCall =>
        obtain ⟨src, rfl, hclass⟩ := cause
        exact ⟨src, hcur, hclass⟩

/-! ### The invariant -/

theorem trapAgrees_of_memFault {s t : State} {a : Word} (h : s.EndsInMemFault t a) (hout : s.inRange a = false) :
    t.trapAgrees := by
  have ha : t.cfg.memSize ≤ a.toNat := by
    rw [h.cfg]
    exact not_inRange_iff.1 hout
  simpa only [State.trapAgrees, h.trap] using And.intro h.status ha

theorem trapAgrees_of_trap_none {t : State} (htrap : t.trap = none) (hstatus : t.status ≠ .fault .illegalMemoryAccess) :
    t.trapAgrees := by
  simpa only [State.trapAgrees, htrap] using hstatus

/-- An instruction run from a clear trap flag leaves flag and status in agreement. -/
theorem trapAgrees_of_effectOf {i : Instr} {s t : State} (hrun : s.status = .running) (htrap : s.trap = none)
    (h : s.EffectOf i t) : t.trapAgrees := by
  cases h.ends with
  | completes pc trap status => exact trapAgrees_of_trap_none (trap.trans htrap) (not_fault_of_completes hrun status _)
  | memFaults a outside fault => exact trapAgrees_of_memFault fault outside
  | faults k cause status pc trap =>
    refine trapAgrees_of_trap_none (trap.trans htrap) ?_
    rw [status]
    rintro ⟨⟩
    exact cause

theorem inv_of_storesWithin {s t : State} {addrs : List Word} (hinv : s.Inv) (hcfg : t.cfg = s.cfg)
    (hmem : s.StoresWithin t addrs) (htrap : t.trapAgrees) : t.Inv where
  configOk := hcfg ▸ hinv.configOk
  memWf := hcfg ▸ hmem.wf hinv.memWf
  memWithin := hcfg ▸ hmem.within hinv.memWithin
  trapAgrees := htrap

/-- Settles O18: a step starts with a clear trap flag, since the machine runs; configuration and memory are the effect's. -/
theorem stepKeepsInvariant : Obligations.StepKeepsInvariant := by
  unfold Obligations.StepKeepsInvariant
  intro s t hinv hstep
  have hrun := running_of_step hstep
  have htrap : s.trap = none := (trap_eq_none_iff hinv.trapAgrees).2 (by rw [hrun]; exact Status.noConfusion)
  obtain ⟨_, hpc, hfault⟩ | ⟨_, _, hfault⟩ | ⟨i, _, heffect⟩ := step_effect_cases hstep
  · have hmem : s.StoresWithin t [] := storesWithin_of_mem_eq hfault.mem hfault.fault.cfg
    exact inv_of_storesWithin hinv hfault.fault.cfg hmem (trapAgrees_of_memFault hfault.fault hpc)
  · have hmem : s.StoresWithin t [] := storesWithin_of_mem_eq hfault.mem hfault.cfg
    refine inv_of_storesWithin hinv hfault.cfg hmem (trapAgrees_of_trap_none (hfault.trap.trans htrap) ?_)
    rw [hfault.status]
    rintro ⟨⟩
  · exact inv_of_storesWithin hinv heffect.cfg heffect.mem (trapAgrees_of_effectOf hrun htrap heffect)

theorem cfg_of_step {s t : State} (h : step s = .next t) : t.cfg = s.cfg := by
  obtain ⟨_, _, hfault⟩ | ⟨_, _, hfault⟩ | ⟨i, _, heffect⟩ := step_effect_cases h
  · exact hfault.fault.cfg
  · exact hfault.cfg
  · exact heffect.cfg

theorem cfg_of_reaches {s t : State} (h : Reaches s t) : t.cfg = s.cfg := by
  induction h with
  | start => rfl
  | next _ hstep ih => exact (cfg_of_step hstep).trans ih

/-- Settles O19: the class of a selector is read from the configuration. -/
theorem runKeepsConfiguration : Obligations.RunKeepsConfiguration := by
  unfold Obligations.RunKeepsConfiguration
  intro s t hreach
  have hcfg := cfg_of_reaches hreach
  exact ⟨hcfg, fun sel => by rw [State.selectorClass, State.selectorClass, hcfg]⟩

/-! ### Liveness -/

/-- SYS stops only where an implemented call's performance has no answer (U4). -/
theorem exec_sys_next_or_stuck (src : Src) (s : State) :
    (∃ t, exec (.sys src) s = .next t) ∨
      (exec (.sys src) s = .fault .systemCallNeverAnswers ∧ s.selectorClass (s.srcVal src) = .implemented ∧
        (s.rtsPerformance (s.srcVal src)).ending = .never) := by
  rw [exec_sys]
  cases hclass : s.selectorClass (s.srcVal src) with
  | undefined => exact .inl ⟨_, execSys_of_undefined hclass⟩
  | unsupported => exact .inl ⟨_, execSys_of_unsupported hclass⟩
  | implemented =>
    obtain ⟨m, ⟨a, _, hfault⟩ | hfinish, _⟩ := execSys_of_implemented hclass
    · exact .inl ⟨_, hfault⟩
    · rw [hfinish]
      cases hending : (s.rtsPerformance (s.srcVal src)).ending with
      | ret v => exact .inl ⟨_, rfl⟩
      | exit v => exact .inl ⟨_, rfl⟩
      | never => exact .inr ⟨rfl, rfl, rfl⟩

/-- Settles O11: both faults of the fetch and every instruction but SYS answer a next state. -/
theorem runningCoreHasNextState : Obligations.RunningCoreHasNextState := by
  unfold Obligations.RunningCoreHasNextState
  intro s hrun
  obtain ⟨_, _, hstep⟩ | ⟨_, _, _, _, _, hstep⟩ | ⟨_, i, _, _, hcur, hstep⟩ := step_running_cases hrun
  · exact .inl ⟨_, hstep⟩
  · exact .inl ⟨_, hstep⟩
  · rw [hstep]
    by_cases hsys : ∃ src, i = .sys src
    case pos =>
      obtain ⟨src, rfl⟩ := hsys
      obtain hnext | ⟨hstuck, hclass, hending⟩ := exec_sys_next_or_stuck src s
      · exact .inl hnext
      · exact .inr ⟨hstuck, src, hcur, hclass, hending⟩
    case neg =>
      obtain ⟨t, ht, _⟩ := exec_effectOf_of_ne_sys s (not_exists.1 hsys)
      exact .inl ⟨t, ht⟩

end Sys2Proof.Machine

/-! Sequences of instructions (S8, R107, R142): `execAll` step by step, each step by the result of its instruction. -/

namespace Sys2Proof.Machine

theorem execAll_cons {i : Instr} {is : List Instr} {s t : State} (hexec : exec i s = .next t) (hrun : t.status = .running) :
    execAll (i :: is) s = execAll is t := by
  simp only [execAll, hexec, hrun, if_true]

theorem execAll_singleton {i : Instr} {s t : State} (hexec : exec i s = .next t) (hrun : t.status = .running) :
    execAll [i] s = some t := execAll_cons hexec hrun

theorem execAll_append (is js : List Instr) (s : State) : execAll (is ++ js) s = (execAll is s).bind (execAll js) := by
  induction is generalizing s with
  | nil => rfl
  | cons i is ih =>
    rw [List.cons_append, execAll, execAll]
    cases exec i s with
    | next t =>
      dsimp only
      split
      case isTrue => exact ih t
      case isFalse => rfl
    | fault _ => rfl
    | refused _ => rfl

theorem execAll_append_of_some {is js : List Instr} {s t : State} (h : execAll is s = some t) :
    execAll (is ++ js) s = execAll js t := by
  rw [execAll_append, h, Option.bind_some]

theorem add_one_add_one (v : Word) : v + 1#32 + 1#32 = v + 2#32 := add_assoc v 1#32 1#32

/-! ### LAD, SHL, OR -/

/-- The upper three bytes, moved back, and the low byte. -/
theorem shiftRight_shiftLeft_or_low_byte (c : Word) : ((c >>> 8) <<< 8) ||| (c &&& 0xFF#32) = c := by
  apply BitVec.eq_of_getLsbD_eq
  intro k hk
  rw [show (0xFF#32 : Word) = (BitVec.allOnes 8).setWidth 32 by decide]
  simp only [BitVec.getLsbD_or, BitVec.getLsbD_and, BitVec.getLsbD_shiftLeft, BitVec.getLsbD_ushiftRight,
    BitVec.getLsbD_setWidth, BitVec.getLsbD_allOnes, hk, decide_true, Bool.true_and]
  by_cases hlow : k < 8
  · simp [hlow]
  · simp [hlow, show 8 + (k - 8) = k by omega]

theorem fits28_shiftRight_8 (c : Word) : fits28 (c >>> 8) = true := by
  have hlt := c.isLt
  simp only [fits28, BitVec.toNat_ushiftRight, Nat.shiftRight_eq_div_pow, decide_eq_true_eq]
  omega

theorem fits20_low_byte (c : Word) : fits20 (c &&& 0xFF#32) = true := by
  have hle : (c &&& 0xFF#32).toNat ≤ 0xFF := by
    rw [BitVec.toNat_and]
    exact Nat.and_le_right
  have hint : (c &&& 0xFF#32).toInt = (c &&& 0xFF#32).toNat := BitVec.toInt_eq_toNat_of_lt (by omega)
  simp only [fits20, Bool.and_eq_true, decide_eq_true_eq]
  omega

/-- Settles O34: three register writes of the accumulator, the shift by a count on which the laws agree. -/
theorem threeInstructionsMakeAnyConstant : Obligations.ThreeInstructionsMakeAnyConstant := by
  unfold Obligations.ThreeInstructionsMakeAnyConstant
  intro s c hrun
  refine ⟨fun ra => ?legal, ?result⟩
  case legal =>
    simp only [List.forall_mem_cons]
    exact ⟨fits28_shiftRight_8 c, rfl, fits20_low_byte c, List.forall_mem_nil _⟩
  case result =>
    obtain ⟨t₁, hlad, h₁⟩ : ∃ t, exec (.ladA (c >>> 8)) s = .next t ∧ s.WritesOnly t .acc (c >>> 8) :=
      ⟨_, exec_ladA _ s, advance_setReg_writesOnly .acc _ s⟩
    obtain ⟨t₂, hshl, h₂⟩ : ∃ t, exec (.shl .acc (.imm 8#32)) t₁ = .next t ∧ t₁.WritesOnly t .acc (t₁.reg .acc <<< 8) :=
      ⟨_, exec_shl _ _ t₁, shiftLeft_of_lt t₁.cfg.shiftLaw _ (b := 8#32) (by decide) ▸ aluOp_writesOnly _ .acc _ t₁⟩
    obtain ⟨t, hor, h₃⟩ : ∃ t, exec (.or .acc (.imm (c &&& 0xFF#32))) t₂ = .next t ∧
        t₂.WritesOnly t .acc (t₂.reg .acc ||| c &&& 0xFF#32) := ⟨_, exec_or _ _ t₂, aluOp_writesOnly _ .acc _ t₂⟩
    have hrun₁ : t₁.status = .running := h₁.rest.status.trans hrun
    have hrun₂ : t₂.status = .running := h₂.rest.status.trans hrun₁
    refine ⟨t, ?run, ?acc, ?pc, ?mem⟩
    case run =>
      rw [execAll_cons hlad hrun₁, execAll_cons hshl hrun₂]
      exact execAll_singleton hor (h₃.rest.status.trans hrun₂)
    case acc =>
      rw [h₃.written, h₂.written, h₁.written]
      exact shiftRight_shiftLeft_or_low_byte c
    case pc =>
      rw [h₃.pc, h₂.pc, h₁.pc, add_one_add_one]
      exact add_assoc s.pc 1#32 2#32
    case mem => rw [h₃.mem, h₂.mem, h₁.mem]

/-! ### CMP and a branch -/

/-- A branch after `CMP A, v` tests what its condition says of the comparison's result. -/
theorem pc_cmp_branch {src : Src} {offset : Word} {s : State} {i : Instr} {cond : Word → Bool} {P : Prop} [Decidable P]
    (hrun : s.status = .running) (hexec : ∀ t, exec i t = .next (branchIf cond offset t))
    (hcond : cond (compareSigned (s.reg .acc) (s.srcVal src)) = true ↔ P) :
    (execAll [.cmp .acc src, i] s).map State.pc = some (if P then s.pc + 2#32 + offset else s.pc + 2#32) := by
  have hcmp := aluOp_writesOnly compareSigned .acc src s
  rw [← hcmp.written] at hcond
  have hbranch := branchIf_transfersOnly_ite offset hcond
  have hruncmp := hcmp.rest.status.trans hrun
  rw [execAll_cons (exec_cmp .acc src s) hruncmp, execAll_singleton (hexec _) (hbranch.rest.status.trans hruncmp),
    Option.map_some, hbranch.pc, hcmp.pc, add_one_add_one]

section
variable {a b : Word}

theorem toInt_compareSigned_neg_iff : (compareSigned a b).toInt < 0 ↔ a.toInt < b.toInt := by
  obtain hlt | heq | hgt := lt_trichotomy a.toInt b.toInt
  · exact iff_of_true (by rw [compareSigned_of_lt hlt]; decide) hlt
  · exact iff_of_false (by rw [compareSigned_of_eq heq]; decide) heq.not_lt
  · exact iff_of_false (by rw [compareSigned_of_gt hgt]; decide) hgt.not_gt

theorem toInt_compareSigned_eq_zero_iff : (compareSigned a b).toInt = 0 ↔ a.toInt = b.toInt := by
  obtain hlt | heq | hgt := lt_trichotomy a.toInt b.toInt
  · exact iff_of_false (by rw [compareSigned_of_lt hlt]; decide) hlt.ne
  · exact iff_of_true (by rw [compareSigned_of_eq heq]; decide) heq
  · exact iff_of_false (by rw [compareSigned_of_gt hgt]; decide) hgt.ne'

theorem condEq_compareSigned : condEq (compareSigned a b) = true ↔ a.toInt = b.toInt := by
  rw [condEq_iff, ← toInt_eq_zero_iff, toInt_compareSigned_eq_zero_iff]

theorem condNe_compareSigned : condNe (compareSigned a b) = true ↔ a.toInt ≠ b.toInt := by
  rw [condNe_iff, ne_eq, ← toInt_eq_zero_iff, toInt_compareSigned_eq_zero_iff]

theorem condLt_compareSigned : condLt (compareSigned a b) = true ↔ a.toInt < b.toInt := by
  rw [condLt_iff, toInt_compareSigned_neg_iff]

theorem condLe_compareSigned : condLe (compareSigned a b) = true ↔ a.toInt ≤ b.toInt := by
  rw [condLe_iff, Int.le_iff_lt_or_eq, toInt_compareSigned_neg_iff, toInt_compareSigned_eq_zero_iff, ← Int.le_iff_lt_or_eq]

theorem condGt_compareSigned : condGt (compareSigned a b) = true ↔ b.toInt < a.toInt := by
  rw [condGt_iff, ← Int.not_le, ← condLe_iff, condLe_compareSigned, Int.not_le]

theorem condGe_compareSigned : condGe (compareSigned a b) = true ↔ b.toInt ≤ a.toInt := by
  rw [condGe_iff, ← Int.not_lt, toInt_compareSigned_neg_iff, Int.not_lt]

end

/-- Settles O51: the sign of the comparison's result is the relation that each condition tests. -/
theorem branchesAfterCompareTestTheRelation : Obligations.BranchesAfterCompareTestTheRelation := by
  unfold Obligations.BranchesAfterCompareTestTheRelation
  intro src offset s hrun
  exact ⟨pc_cmp_branch hrun (exec_beq offset) condEq_compareSigned, pc_cmp_branch hrun (exec_bne offset) condNe_compareSigned,
    pc_cmp_branch hrun (exec_blt offset) condLt_compareSigned, pc_cmp_branch hrun (exec_ble offset) condLe_compareSigned,
    pc_cmp_branch hrun (exec_bgt offset) condGt_compareSigned, pc_cmp_branch hrun (exec_bge offset) condGe_compareSigned⟩

/-! ### PUSH and POP -/

/-- Settles O37: POP reads the slot that PUSH wrote, and its move of x[0] undoes PUSH's. -/
theorem popUndoesPush : Obligations.PopUndoesPush := by
  unfold Obligations.PopUndoesPush
  intro src rb s hrun hin
  obtain ⟨t, hpush, hstores, hspPush, hothers, _, hrest⟩ := (pushResult src s).1 hin
  have hsp : t.reg .sp + 1#32 = s.reg .sp := by
    rw [hspPush]
    exact sub_add_cancel (s.reg .sp) 1#32
  have hslot : t.inRange (t.reg .sp + 1#32) = true := by rw [hsp, inRange_congr hrest.cfg, hin]
  have hrunt : t.status = .running := hrest.status.trans hrun
  refine ⟨popWrites rb t, ?run, ?moved, fun q hq => ?others⟩
  case run =>
    rw [execAll_cons hpush hrunt]
    exact execAll_singleton (exec_pop_of_inRange rb hslot) ((popWrites_sameRest rb t).status.trans hrunt)
  case moved => rw [reg_popWrites_same, hsp, hstores.stored]
  case others =>
    by_cases hqsp : q = .sp
    · subst hqsp
      rw [reg_popWrites_sp t hq.symm, hsp]
    · rw [reg_popWrites_ne rb t hqsp hq, hothers q hqsp]

/-! ### A jump to itself -/

theorem eq_of_reaches_of_step_self {s t : State} (hself : step s = .next s) (h : Reaches s t) : t = s := by
  induction h with
  | start => rfl
  | next _ hstep ih =>
    subst ih
    exact Host.Outcome.next.inj (hstep.symm.trans hself)

/-- Settles O43: the jump's transfer is to the pc that the state has, so the run is that one state. -/
theorem jumpToItselfLoopsSafely : Obligations.JumpToItselfLoopsSafely := by
  unfold Obligations.JumpToItselfLoopsSafely
  intro s hrun hcur
  have hself : step s = .next s := by rw [step_eq_exec hrun hcur, exec_jmpA, advance_setPc, setPc_self]
  refine ⟨hself, fun t k hreach => ?_⟩
  rw [eq_of_reaches_of_step_self hself hreach, hrun]
  exact Status.noConfusion

end Sys2Proof.Machine

/-! Calls and returns together (R105, R114): RET undoes CALL from any state that keeps the two words of the record, so nested calls
balance, and the record of a called function lies around the frame pointer. -/

namespace Sys2Proof.Machine

/-! ### Words outside a store -/

theorem readWord_of_storesOnly {s t : State} {a b : Nat} {v : Word} (h : s.StoresOnly t a v) (hne : b ≠ a) :
    t.readWord b = s.readWord b := readWord_of_readByte fun k _ _ => h.others k (by omega)

theorem readWord_of_storesTwo {s t : State} {a b c : Nat} {v w : Word} (h : s.StoresTwo t a v b w) (hca : c ≠ a)
    (hcb : c ≠ b) : t.readWord c = s.readWord c := readWord_of_readByte fun k _ _ => h.others k (by omega) (by omega)

/-- Above 0 the stack pointer moves down without wrapping. -/
theorem toNat_sub_ofNat {v : Word} {k : Nat} (h : k ≤ v.toNat) : (v - BitVec.ofNat 32 k).toNat = v.toNat - k := by
  have hlt := v.isLt
  rw [BitVec.toNat_sub, BitVec.toNat_ofNat]
  omega

theorem sameRest_trans {s t u : State} (h : s.SameRest t) (h' : t.SameRest u) : s.SameRest u where
  trap := h'.trap.trans h.trap
  status := h'.status.trans h.status
  cfg := h'.cfg.trans h.cfg
  rtsScript := h'.rtsScript.trans h.rtsScript
  rtsCalls := h'.rtsCalls.trans h.rtsCalls

/-! ### RET after CALL -/

/-- A CALL that goes on has written both slots. -/
theorem inRange_of_callTo_running {target : Word} {s : State} (h : (callTo target s).status = .running) :
    s.inRange (s.reg .sp) = true ∧ s.inRange (s.reg .sp - 1#32) = true := by
  cases hfirst : s.inRange (s.reg .sp) with
  | false => cases h.symm.trans (callTo_takesMemFault target hfirst).fault.status
  | true =>
    cases hsecond : s.inRange (s.reg .sp - 1#32) with
    | false => cases h.symm.trans (callTo_faults_after_first_push target hfirst hsecond).1.status
    | true => exact ⟨rfl, rfl⟩

/-- Where x[1] and the two words are as CALL at `s` left them, RET restores both pointers and goes on after the CALL. -/
theorem exec_ret_of_record {s u : State} (hfirst : s.inRange (s.reg .sp) = true) (hsecond : s.inRange (s.reg .sp - 1#32) = true)
    (hcfg : u.cfg = s.cfg) (hfp : u.reg .fp = s.reg .sp - 1#32) (hsaved : u.readWord (s.reg .sp).toNat = s.reg .fp)
    (hreturn : u.readWord (s.reg .sp - 1#32).toNat = s.pc + 1#32) :
    exec .ret u = .next (retWrites u) ∧ (retWrites u).reg .sp = s.reg .sp ∧ (retWrites u).reg .fp = s.reg .fp ∧
      (retWrites u).pc = s.pc + 1#32 := by
  have habove : u.reg .fp + 1#32 = s.reg .sp := by
    rw [hfp]
    exact sub_add_cancel (s.reg .sp) 1#32
  refine ⟨exec_ret_of_inRange ?_ ?_, ?_, ?_, ?_⟩
  · rw [inRange_congr hcfg, hfp, hsecond]
  · rw [inRange_congr hcfg, habove, hfirst]
  · rw [reg_retWrites_sp, habove]
  · rw [reg_retWrites_fp, habove, hsaved]
  · rw [retWrites_pc, hfp, hreturn]

/-- Both forms of CALL run `callTo`. -/
theorem exec_eq_callTo {i : Instr} (hcall : (∃ target, i = .callA target) ∨ ∃ src, i = .callR src) (s : State) :
    ∃ target, exec i s = .next (callTo target s) := by
  obtain ⟨target, rfl⟩ | ⟨src, rfl⟩ := hcall
  · exact ⟨target, exec_callA target s⟩
  · exact ⟨s.srcVal src, exec_callR src s⟩

/-- Settles O47: the two words are the frame pointer and the return address that CALL stored. -/
theorem callReturnBalance : Obligations.CallReturnBalance := by
  unfold Obligations.CallReturnBalance
  intro i s t u hcall _ hexec hrun hcfg hfp hsaved hreturn
  obtain ⟨target, htarget⟩ := exec_eq_callTo hcall s
  cases htarget.symm.trans hexec
  obtain ⟨hfirst, hsecond⟩ := inRange_of_callTo_running hrun
  obtain ⟨hstores, _⟩ := callTo_links target hfirst hsecond
  rw [hstores.first] at hsaved
  rw [hstores.second] at hreturn
  obtain ⟨hret, hsp, hfp', hpc⟩ := exec_ret_of_record hfirst hsecond hcfg hfp hsaved hreturn
  exact ⟨_, hret, hsp, hfp', hpc, retWrites_mem u⟩

/-! ### Nested calls -/

/-- What `n` calls and their returns leave: all registers and every byte outside the `2 * n` words at and below the stack pointer. -/
structure State.Balanced (s t : State) (n : Nat) : Prop where
  regs : ∀ q, t.reg q = s.reg q
  rest : s.SameRest t
  bytes : ∀ k, (k < 4 * ((s.reg .sp).toNat + 1 - 2 * n) ∨ 4 * ((s.reg .sp).toNat + 1) ≤ k) → t.readByte k = s.readByte k

theorem balanced_refl (s : State) : s.Balanced s 0 := ⟨fun _ => rfl, ⟨rfl, rfl, rfl, rfl, rfl⟩, fun _ _ => rfl⟩

section
variable {target : Word} {s v : State} {n : Nat} (hfirst : s.inRange (s.reg .sp) = true)
  (hsecond : s.inRange (s.reg .sp - 1#32) = true) (hroom : 2 * (n + 1) ≤ (s.reg .sp).toNat + 1)
  (hbal : (callTo target s).Balanced v n)
include hfirst hsecond hroom hbal

/-- The calls inside a call leave the two words of its record, and all bytes outside the record and theirs. -/
theorem readByte_of_balanced_callTo {k : Nat}
    (hk : k < 4 * ((s.reg .sp).toNat + 1 - 2 * (n + 1)) ∨ 4 * ((s.reg .sp).toNat - 1) ≤ k) :
    v.readByte k = (callTo target s).readByte k := by
  obtain ⟨_, _, hsp, _⟩ := callTo_links target hfirst hsecond
  apply hbal.bytes
  rw [hsp]
  obtain rfl | hpos := Nat.eq_zero_or_pos n
  · omega
  · rw [toNat_sub_ofNat (by omega)]
    exact hk.imp (fun hlow => by omega) fun hhigh => by omega

/-- RET after balanced calls inside a call balances that call. -/
theorem balanced_ret_of_call :
    exec .ret v = .next (retWrites v) ∧ s.Balanced (retWrites v) (n + 1) ∧ (retWrites v).pc = s.pc + 1#32 := by
  obtain ⟨hstores, hfp, hsp, hacc, hsec, _, hrest⟩ := callTo_links target hfirst hsecond
  have hbelow : (s.reg .sp - 1#32).toNat = (s.reg .sp).toNat - 1 := toNat_sub_ofNat (by omega)
  have hkept : ∀ k, k < 4 * ((s.reg .sp).toNat + 1 - 2 * (n + 1)) ∨ 4 * ((s.reg .sp).toNat - 1) ≤ k →
      v.readByte k = (callTo target s).readByte k := fun k => readByte_of_balanced_callTo hfirst hsecond hroom hbal
  have hsaved : v.readWord (s.reg .sp).toNat = s.reg .fp :=
    (readWord_of_readByte fun k hlow _ => hkept k (by omega)).trans hstores.first
  have hreturn : v.readWord (s.reg .sp - 1#32).toNat = s.pc + 1#32 :=
    (readWord_of_readByte fun k hlow _ => hkept k (by omega)).trans hstores.second
  obtain ⟨hret, hsp', hfp', hpc⟩ := exec_ret_of_record hfirst hsecond (hbal.rest.cfg.trans hrest.cfg)
    ((hbal.regs .fp).trans hfp) hsaved hreturn
  have hrest' := retWrites_sameRest v
  refine ⟨hret, ⟨fun q => ?regs, ?rest, fun k hk => ?bytes⟩, hpc⟩
  case regs =>
    cases q with
    | sp => exact hsp'
    | fp => exact hfp'
    | acc => exact (hbal.regs .acc).trans hacc
    | sec => exact (hbal.regs .sec).trans hsec
  case rest => exact sameRest_trans hrest (sameRest_trans hbal.rest hrest')
  case bytes =>
    calc (retWrites v).readByte k = v.readByte k := readByte_congr (retWrites_mem v) hrest'.cfg k
      _ = (callTo target s).readByte k := hkept k (hk.imp_right fun hhigh => by omega)
      _ = s.readByte k := hstores.others k (hk.imp (fun hlow => by omega) fun hhigh => by omega)
        (hk.imp (fun hlow => by omega) fun hhigh => by omega)

end

/-- By induction on the calls: the first call's RET comes last, after the balanced calls inside it. -/
theorem execAll_calls_rets (calls : List Instr) (s : State) (hrun : s.status = .running)
    (hcalls : ∀ i ∈ calls, (∃ target, i = .callA target) ∨ ∃ src, i = .callR src)
    (hroom : calls ≠ [] → (s.reg .sp).toNat < s.cfg.memSize ∧ 2 * calls.length ≤ (s.reg .sp).toNat + 1) :
    ∃ t, execAll (calls ++ List.replicate calls.length .ret) s = some t ∧ s.Balanced t calls.length ∧
      (calls ≠ [] → t.pc = s.pc + 1#32) := by
  induction calls generalizing s with
  | nil => exact ⟨s, rfl, balanced_refl s, fun h => absurd rfl h⟩
  | cons i calls ih =>
    obtain ⟨hlt, hlen⟩ := hroom (List.cons_ne_nil i calls)
    rw [List.length_cons] at hlen
    obtain ⟨hi, hcalls'⟩ := List.forall_mem_cons.1 hcalls
    obtain ⟨target, hexec⟩ := exec_eq_callTo hi s
    have hfirst : s.inRange (s.reg .sp) = true := inRange_iff.2 hlt
    have hsecond : s.inRange (s.reg .sp - 1#32) = true := inRange_iff.2 (by rw [toNat_sub_ofNat (by omega)]; omega)
    obtain ⟨_, _, hsp, _, _, _, hrest⟩ := callTo_links target hfirst hsecond
    have hrun₁ : (callTo target s).status = .running := hrest.status.trans hrun
    have hroom₁ : calls ≠ [] → ((callTo target s).reg .sp).toNat < (callTo target s).cfg.memSize ∧
        2 * calls.length ≤ ((callTo target s).reg .sp).toNat + 1 := fun hne => by
      have hpos := List.length_pos_iff.2 hne
      rw [hsp, hrest.cfg, toNat_sub_ofNat (by omega)]
      omega
    obtain ⟨v, hinner, hbal, _⟩ := ih (callTo target s) hrun₁ hcalls' hroom₁
    obtain ⟨hret, hbal', hpc⟩ := balanced_ret_of_call hfirst hsecond hlen hbal
    refine ⟨retWrites v, ?_, hbal', fun _ => hpc⟩
    rw [List.length_cons, List.replicate_succ', List.cons_append, ← List.append_assoc, execAll_cons hexec hrun₁,
      execAll_append_of_some hinner]
    exact execAll_singleton hret (hbal'.rest.status.trans hrun)

/-- Settles O48: nested calls with room for their records are balanced. -/
theorem nestedCallsBalance : Obligations.NestedCallsBalance := by
  unfold Obligations.NestedCallsBalance
  intro calls s hrun hcalls hlt hlen hne
  obtain ⟨t, hexec, hbal, hpc⟩ := execAll_calls_rets calls s hrun hcalls fun _ => ⟨hlt, hlen⟩
  exact ⟨t, hexec, hbal.regs .sp, hbal.regs .fp, hpc hne, hbal.regs .acc, hbal.regs .sec, hbal.rest, hbal.bytes⟩

/-! ### The activation record -/

/-- Two pushes with room for both words. -/
theorem execAll_push_push (arg : Src) (count : Word) {s : State} (hrun : s.status = .running) (hroom : 1 ≤ (s.reg .sp).toNat)
    (hlt : (s.reg .sp).toNat < s.cfg.memSize) :
    ∃ t, execAll [.push arg, .push (.imm count)] s = some t ∧ s.SameRest t ∧ t.reg .sp = s.reg .sp - 2#32 ∧
      t.reg .fp = s.reg .fp ∧ t.pc = s.pc + 2#32 ∧ t.readWord (s.reg .sp - 1#32).toNat = count ∧
      t.readWord (s.reg .sp).toNat = s.srcVal arg := by
  have hin : s.inRange (s.reg .sp) = true := inRange_iff.2 hlt
  obtain ⟨t₁, hexec₁, hstores₁, hsp₁, hothers₁, hpc₁, hrest₁⟩ := (pushResult arg s).1 hin
  have hbelow : (s.reg .sp - 1#32).toNat = (s.reg .sp).toNat - 1 := toNat_sub_ofNat (by omega)
  have hin₁ : t₁.inRange (t₁.reg .sp) = true := by
    rw [inRange_congr hrest₁.cfg, hsp₁, inRange_iff]
    omega
  obtain ⟨t₂, hexec₂, hstores₂, hsp₂, hothers₂, hpc₂, hrest₂⟩ := (pushResult (.imm count) t₁).1 hin₁
  rw [hsp₁] at hstores₂
  have hrun₁ : t₁.status = .running := hrest₁.status.trans hrun
  refine ⟨t₂, ?run, sameRest_trans hrest₁ hrest₂, ?sp, ?fp, ?pc, hstores₂.stored, ?arg⟩
  case run =>
    rw [execAll_cons hexec₁ hrun₁]
    exact execAll_singleton hexec₂ (hrest₂.status.trans hrun₁)
  case sp =>
    rw [hsp₂, hsp₁]
    exact sub_sub (s.reg .sp) 1#32 1#32
  case fp => rw [hothers₂ .fp (by decide), hothers₁ .fp (by decide)]
  case pc => rw [hpc₂, hpc₁, add_one_add_one]
  case arg => rw [readWord_of_storesOnly hstores₂ (by omega), hstores₁.stored]

/-- With the frame pointer three words below, the slots of count and argument are the two that were pushed. -/
theorem argAddr_of_fp {t : State} {sp : Word} (hfp : t.reg .fp = sp - 3#32) :
    t.argAddr 0#32 = sp - 1#32 ∧ t.argAddr 1#32 = sp := by
  rw [State.argAddr, State.argAddr, hfp]
  exact ⟨by bv_omega, by bv_omega⟩

/-- Settles O49: CALL stores the two lower words of the record and leaves the two that were pushed. -/
theorem activationRecordLayout : Obligations.ActivationRecordLayout := by
  unfold Obligations.ActivationRecordLayout
  intro arg count target s hrun hroom hlt
  obtain ⟨u, hpushes, hrestu, hspu, hfpu, hpcu, hcount, harg⟩ := execAll_push_push arg count hrun (by omega) hlt
  have hbelow : u.reg .sp - 1#32 = s.reg .sp - 3#32 := by
    rw [hspu]
    exact sub_sub (s.reg .sp) 2#32 1#32
  have haddr₁ : (s.reg .sp - 1#32).toNat = (s.reg .sp).toNat - 1 := toNat_sub_ofNat (by omega)
  have haddr₂ : (s.reg .sp - 2#32).toNat = (s.reg .sp).toNat - 2 := toNat_sub_ofNat (by omega)
  have haddr₃ : (s.reg .sp - 3#32).toNat = (s.reg .sp).toNat - 3 := toNat_sub_ofNat (by omega)
  have hfirst : u.inRange (u.reg .sp) = true := by
    rw [inRange_congr hrestu.cfg, hspu, inRange_iff]
    omega
  have hsecond : u.inRange (u.reg .sp - 1#32) = true := by
    rw [inRange_congr hrestu.cfg, hbelow, inRange_iff]
    omega
  obtain ⟨hstores, hfp, hsp, _, _, hpc, hrest⟩ := callTo_links target hfirst hsecond
  rw [hbelow, hspu, hfpu, hpcu] at hstores
  rw [hbelow] at hfp
  obtain ⟨hcountAddr, hargAddr⟩ := argAddr_of_fp hfp
  refine ⟨callTo target u, ?run, hpc, hfp, ?sp, ?returnAddress, ?savedFp, ?count, ?arg⟩
  case run =>
    rw [show [Instr.push arg, .push (.imm count), .callA target] = [.push arg, .push (.imm count)] ++ [.callA target] from rfl,
      execAll_append_of_some hpushes]
    exact execAll_singleton (exec_callA target u) (hrest.status.trans (hrestu.status.trans hrun))
  case sp =>
    rw [hsp, hspu]
    exact sub_sub (s.reg .sp) 2#32 2#32
  case returnAddress =>
    rw [hfp, hstores.second]
    exact add_assoc s.pc 2#32 1#32
  case savedFp => rw [hfp, show (s.reg .sp - 3#32).toNat + 1 = (s.reg .sp - 2#32).toNat by omega, hstores.first]
  case count => rw [hcountAddr, readWord_of_storesTwo hstores (by omega) (by omega), hcount]
  case arg => rw [hargAddr, readWord_of_storesTwo hstores (by omega) (by omega), harg]

end Sys2Proof.Machine
